-- ==== Sys2Proof/Word.lean ====
section
/-! DEFINITION. The two word types of the LS-8 core and nothing else (00_scope R12). -/

namespace Sys2Proof

/-- A register value, memory byte, operand byte or opcode: 8 bits, unsigned 0..255 (00_scope R12, 10_state R21). -/
abbrev Byte := BitVec 8

/-- The program counter: 9 bits, of which the machine uses 0..256 (10_state R29). -/
abbrev PcWord := BitVec 9

end Sys2Proof
end

