-- ==== Sys2Proof/Config.lean ====
section
/-! DEFINITION. What an implementation fixes: the constants of 00_scope R7 and the named parameters of
92_eei_decisions and 93_implementation_defined. The values in force are `Machine.policy` (Machine/Ops.lean). -/

namespace Sys2Proof

/-- ILLEGAL_POLICY (92 D7, 93 U5): what an undefined opcode with bit 5 clear does. -/
inductive IllegalPolicy where
  | fault
  | skip
  deriving DecidableEq, Repr

/-- STUB_JUMPS (92 D8, 93 U7): whether JGT, JLT, JLE and JGE jump or change nothing at all. -/
inductive StubJumps where
  | implement
  | hang
  deriving DecidableEq, Repr

/-- R7_OPERAND (92 D14, 93 V5): what PUSH, POP and CALL do when their operand is R7. -/
inductive R7Operand where
  | sequential
  | fault
  deriving DecidableEq, Repr

/-- PC_AFTER_HLT (92 D21, 93 V2): where `pc` stands after HLT. -/
inductive PcAfterHlt where
  | atHlt
  | afterHlt
  deriving DecidableEq, Repr

/-- The named parameters whose every value the spec gives an effect (WRITE_POLICY's other value has none: log 10). -/
structure Config where
  illegalPolicy : IllegalPolicy
  stubJumps : StubJumps
  r7Operand : R7Operand
  pcAfterHlt : PcAfterHlt
  deriving DecidableEq, Repr

/-- The spec's defaults: ILLEGAL_POLICY fault, STUB_JUMPS implement, R7_OPERAND sequential, PC_AFTER_HLT at_hlt. -/
def Config.default : Config where
  illegalPolicy := .fault
  stubJumps := .implement
  r7Operand := .sequential
  pcAfterHlt := .atHlt

/-- The last address of memory: addresses are 0..255 (20_memory R40). -/
def maxAddr : Nat := 255

/-- The register the stack instructions use implicitly (10_state R23). -/
abbrev spIndex : Fin 8 := 7

/-- Reset value of the stack pointer (10_state R23, R27). -/
def spReset : Byte := 0xF4#8

/-- What an address that nothing has written reads as (70_reset_and_hazards R233, D34; log 7). -/
def unwrittenByte : Byte := 0#8

end Sys2Proof
end

