-- ==== Sys2Proof/Syntax.lean ====
section
/-! DEFINITION. The instructions of 30_encoding R64, one constructor per row of the opcode table. -/

namespace Sys2Proof

/-- One LS-8 instruction. A register operand is the operand byte itself, whole and unmasked (30_encoding R68):
whether it names a register is checked when the instruction executes (40_engine_cycle R85). `pra` keeps its
uninterpreted operand byte (R152); `int` holds none, since its operand byte is never read (R179, log 5). -/
inductive Instr where
  -- format Z
  | nop
  | hlt
  | ret
  | iret
  -- format R
  | push (r : Byte)
  | pop (r : Byte)
  | prn (r : Byte)
  | pra (operand : Byte)
  | call (r : Byte)
  | int
  | jmp (r : Byte)
  | jeq (r : Byte)
  | jne (r : Byte)
  | jgt (r : Byte)
  | jlt (r : Byte)
  | jle (r : Byte)
  | jge (r : Byte)
  | inc (r : Byte)
  | dec (r : Byte)
  | not (r : Byte)
  -- format RI
  | ldi (r imm : Byte)
  -- format RR
  | ld (ra rb : Byte)
  | st (ra rb : Byte)
  | add (ra rb : Byte)
  | sub (ra rb : Byte)
  | mul (ra rb : Byte)
  | div (ra rb : Byte)
  | mod (ra rb : Byte)
  | cmp (ra rb : Byte)
  | and (ra rb : Byte)
  | or (ra rb : Byte)
  | xor (ra rb : Byte)
  | shl (ra rb : Byte)
  | shr (ra rb : Byte)
  deriving DecidableEq, Repr

end Sys2Proof
end

