-- ==== Sys2Proof/WellFormed.lean ====
section
/-! DEFINITION. Which operand bytes of an instruction name registers, and the check that each is 0..7
(30_encoding R67, 40_engine_cycle R85, 10_state R26). -/

namespace Sys2Proof

/-- A byte that names a register: 0..7, no bits masked off (10_state R26). -/
def isRegByte (b : Byte) : Bool := decide (b.toNat < 8)

/-- The operand bytes the instruction's format names as registers, in the order they are checked
(30_encoding R67, 40_engine_cycle R85). The LDI immediate and the PRA operand are not among them. -/
def Instr.regOperands : Instr → List Byte
  | .nop => []
  | .hlt => []
  | .ret => []
  | .iret => []
  | .push r => [r]
  | .pop r => [r]
  | .prn r => [r]
  | .pra _ => []
  | .call r => [r]
  | .int => []
  | .jmp r => [r]
  | .jeq r => [r]
  | .jne r => [r]
  | .jgt r => [r]
  | .jlt r => [r]
  | .jle r => [r]
  | .jge r => [r]
  | .inc r => [r]
  | .dec r => [r]
  | .not r => [r]
  | .ldi r _ => [r]
  | .ld ra rb => [ra, rb]
  | .st ra rb => [ra, rb]
  | .add ra rb => [ra, rb]
  | .sub ra rb => [ra, rb]
  | .mul ra rb => [ra, rb]
  | .div ra rb => [ra, rb]
  | .mod ra rb => [ra, rb]
  | .cmp ra rb => [ra, rb]
  | .and ra rb => [ra, rb]
  | .or ra rb => [ra, rb]
  | .xor ra rb => [ra, rb]
  | .shl ra rb => [ra, rb]
  | .shr ra rb => [ra, rb]

/-- Every register operand names a register. -/
def Instr.wf (i : Instr) : Bool := i.regOperands.all isRegByte

/-- `Instr.wf` as a proposition. -/
abbrev WellFormed (i : Instr) : Prop := i.wf = true

end Sys2Proof
end

