-- ==== Sys2Proof/Decode.lean ====
section
/-! DEFINITION. The opcode's fields, the opcode map, the decoder (total on any bytes, rejecting by name) and the
encoder (30_encoding). The decoder reads an instruction byte by byte through a reader, so that the engine's fetch
and the decoding of a list of bytes are one function. -/

namespace Sys2Proof

/-! ### Opcode fields (30_encoding R63) -/

/-- Field AA, bits 7..6: the operand count. -/
def opOperandCount (op : Byte) : Nat := (op.extractLsb 7 6).toNat

/-- Field B, bit 5: the ALU flag. -/
def opIsAlu (op : Byte) : Bool := op.getLsbD 5

/-- Field C, bit 4: the instruction sets `pc` itself. -/
def opSetsPc (op : Byte) : Bool := op.getLsbD 4

/-- Field DDDD, bits 3..0: distinguishes instructions with equal bits 7..4. -/
def opIdent (op : Byte) : Nat := (op.extractLsb 3 0).toNat

/-- The decoded record the source prescribes (30_encoding R69). -/
structure DecodedOpcode where
  opcode : Byte
  operandCount : Nat
  isAlu : Bool
  setsPc : Bool
  deriving DecidableEq, Repr

/-- The record of an opcode, from its byte alone (30_encoding R69). -/
def decodeOpcode (op : Byte) : DecodedOpcode where
  opcode := op
  operandCount := opOperandCount op
  isAlu := opIsAlu op
  setsPc := opSetsPc op

/-! ### The opcode map (30_encoding R64, R67) -/

/-- The formats of 30_encoding R67, each with how the operand bytes make the instruction. `faulting` is the format of
INT and IRET: they are in the table and raise before any operand byte is read (R72, 40_engine_cycle R84). -/
inductive Form where
  | z (i : Instr)
  | r (make : Byte → Instr)
  | rr (make : Byte → Byte → Instr)
  | ri (make : Byte → Byte → Instr)
  | faulting (i : Instr)

/-- One row of 30_encoding R64. -/
structure OpcodeRow where
  mnemonic : String
  opcode : Byte
  form : Form

/-- Rows with no operand. -/
def rowsZ : List OpcodeRow :=
  [ ⟨"NOP", 0x00#8, .z .nop⟩,
    ⟨"HLT", 0x01#8, .z .hlt⟩,
    ⟨"RET", 0x11#8, .z .ret⟩,
    ⟨"IRET", 0x13#8, .faulting .iret⟩ ]

/-- Rows with one operand, ALU flag clear. -/
def rowsR : List OpcodeRow :=
  [ ⟨"PUSH", 0x45#8, .r .push⟩,
    ⟨"POP", 0x46#8, .r .pop⟩,
    ⟨"PRN", 0x47#8, .r .prn⟩,
    ⟨"PRA", 0x48#8, .r .pra⟩,
    ⟨"CALL", 0x50#8, .r .call⟩,
    ⟨"INT", 0x52#8, .faulting .int⟩,
    ⟨"JMP", 0x54#8, .r .jmp⟩,
    ⟨"JEQ", 0x55#8, .r .jeq⟩,
    ⟨"JNE", 0x56#8, .r .jne⟩,
    ⟨"JGT", 0x57#8, .r .jgt⟩,
    ⟨"JLT", 0x58#8, .r .jlt⟩,
    ⟨"JLE", 0x59#8, .r .jle⟩,
    ⟨"JGE", 0x5A#8, .r .jge⟩ ]

/-- Rows with one operand, ALU flag set (41_alu R118). -/
def rowsAluR : List OpcodeRow :=
  [ ⟨"INC", 0x65#8, .r .inc⟩,
    ⟨"DEC", 0x66#8, .r .dec⟩,
    ⟨"NOT", 0x69#8, .r .not⟩ ]

/-- Rows with two operands. -/
def rowsRR : List OpcodeRow :=
  [ ⟨"LDI", 0x82#8, .ri .ldi⟩,
    ⟨"LD", 0x83#8, .rr .ld⟩,
    ⟨"ST", 0x84#8, .rr .st⟩,
    ⟨"ADD", 0xA0#8, .rr .add⟩,
    ⟨"SUB", 0xA1#8, .rr .sub⟩,
    ⟨"MUL", 0xA2#8, .rr .mul⟩,
    ⟨"DIV", 0xA3#8, .rr .div⟩,
    ⟨"MOD", 0xA4#8, .rr .mod⟩,
    ⟨"CMP", 0xA7#8, .rr .cmp⟩,
    ⟨"AND", 0xA8#8, .rr .and⟩,
    ⟨"OR", 0xAA#8, .rr .or⟩,
    ⟨"XOR", 0xAB#8, .rr .xor⟩,
    ⟨"SHL", 0xAC#8, .rr .shl⟩,
    ⟨"SHR", 0xAD#8, .rr .shr⟩ ]

/-- The parameter OPCODE_MAP at its default, the table of 30_encoding R64 (D30, log 8). -/
def opcodeMap : List OpcodeRow := rowsZ ++ rowsR ++ rowsAluR ++ rowsRR

/-- The format of an opcode in a map, `none` if the opcode is not in it. -/
def formOf (map : List OpcodeRow) (op : Byte) : Option Form :=
  match map with
  | [] => none
  | row :: rest => if row.opcode = op then some row.form else formOf rest op

/-- The halt opcode, tested on the whole byte (40_engine_cycle R82). -/
def haltOpcode : Byte := 0x01#8

/-! ### The decoder -/

/-- Why bytes are no instruction. -/
inductive DecodeError where
  /-- Byte `k` of the instruction (0 the opcode) does not exist (40_engine_cycle R81, R83). -/
  | missingByte (k : Nat)
  /-- Undefined opcode with bit 5 set (30_encoding R71). -/
  | unsupportedOperation (op : Byte)
  /-- Undefined opcode with bit 5 clear (30_encoding R71). -/
  | illegalInstruction (op : Byte)
  deriving DecidableEq, Repr

/-- The rejection of an opcode that is not in the map (30_encoding R71, 40_engine_cycle R84). -/
def undefinedOpcode (op : Byte) : DecodeError :=
  if opIsAlu op then .unsupportedOperation op else .illegalInstruction op

/-- Decode through a reader of instruction bytes: `rd k` is byte `k` of the instruction, `none` where it does not exist.
The opcode is classified before any operand byte is read, and exactly the operand bytes of the format are read, in
order (40_engine_cycle R82, R83, R84). -/
def decodeFrom (map : List OpcodeRow) (rd : Nat → Option Byte) : Except DecodeError Instr :=
  match rd 0 with
  | none => .error (.missingByte 0)
  | some op =>
    if op = haltOpcode then .ok .hlt
    else
      match formOf map op with
      | none => .error (undefinedOpcode op)
      | some (.z i) => .ok i
      | some (.faulting i) => .ok i
      | some (.r make) =>
        match rd 1 with
        | none => .error (.missingByte 1)
        | some a => .ok (make a)
      | some (.rr make) =>
        match rd 1 with
        | none => .error (.missingByte 1)
        | some a =>
          match rd 2 with
          | none => .error (.missingByte 2)
          | some b => .ok (make a b)
      | some (.ri make) =>
        match rd 1 with
        | none => .error (.missingByte 1)
        | some a =>
          match rd 2 with
          | none => .error (.missingByte 2)
          | some b => .ok (make a b)

/-- Decode the instruction at the front of a list of bytes. -/
def decode (bytes : List Byte) : Except DecodeError Instr :=
  decodeFrom opcodeMap (fun k => bytes[k]?)

/-- The first bytes of a number, its least significant byte first, the bits above `nbits` zero: an instruction's bytes
at consecutive addresses, opcode first (30_encoding R61), up to the longest instruction (R60). -/
def tableBytes (nbits w : Nat) : List Byte :=
  let v := w % 2 ^ nbits
  [BitVec.ofNat 8 v, BitVec.ofNat 8 (v / 256), BitVec.ofNat 8 (v / 65536)]

/-- The decoder on a word numbered as the opcode table numbers it (bit 0 is bit 0 of the opcode byte). -/
def decodeTableWord (nbits w : Nat) : Option Instr :=
  match decode (tableBytes nbits w) with
  | .ok i => some i
  | .error _ => none

/-! ### The encoder (30_encoding R64, R67) -/

/-- The bytes of an instruction. INT's operand byte, which nothing reads, is written 0 (R179, log 5). -/
def encode : Instr → List Byte
  | .nop => [0x00#8]
  | .hlt => [0x01#8]
  | .ret => [0x11#8]
  | .iret => [0x13#8]
  | .push r => [0x45#8, r]
  | .pop r => [0x46#8, r]
  | .prn r => [0x47#8, r]
  | .pra a => [0x48#8, a]
  | .call r => [0x50#8, r]
  | .int => [0x52#8, 0x00#8]
  | .jmp r => [0x54#8, r]
  | .jeq r => [0x55#8, r]
  | .jne r => [0x56#8, r]
  | .jgt r => [0x57#8, r]
  | .jlt r => [0x58#8, r]
  | .jle r => [0x59#8, r]
  | .jge r => [0x5A#8, r]
  | .inc r => [0x65#8, r]
  | .dec r => [0x66#8, r]
  | .not r => [0x69#8, r]
  | .ldi r imm => [0x82#8, r, imm]
  | .ld ra rb => [0x83#8, ra, rb]
  | .st ra rb => [0x84#8, ra, rb]
  | .add ra rb => [0xA0#8, ra, rb]
  | .sub ra rb => [0xA1#8, ra, rb]
  | .mul ra rb => [0xA2#8, ra, rb]
  | .div ra rb => [0xA3#8, ra, rb]
  | .mod ra rb => [0xA4#8, ra, rb]
  | .cmp ra rb => [0xA7#8, ra, rb]
  | .and ra rb => [0xA8#8, ra, rb]
  | .or ra rb => [0xAA#8, ra, rb]
  | .xor ra rb => [0xAB#8, ra, rb]
  | .shl ra rb => [0xAC#8, ra, rb]
  | .shr ra rb => [0xAD#8, ra, rb]

/-- The opcode byte of an instruction. -/
def Instr.opcode (i : Instr) : Byte := (encode i).headD 0

/-- The number of operand bytes of an instruction, the field AA of its opcode (30_encoding R70). -/
def Instr.operandCount (i : Instr) : Nat := opOperandCount i.opcode

/-! ### Assembly spelling (30_encoding R74) -/

/-- The mnemonic of an opcode in a map. -/
def mnemonicOf (map : List OpcodeRow) (op : Byte) : Option String :=
  match map with
  | [] => none
  | row :: rest => if row.opcode = op then some row.mnemonic else mnemonicOf rest op

/-- A register operand as assembly writes it: `R` and the index. -/
def regText (r : Byte) : String := "R" ++ toString r.toNat

/-- The operands as assembly writes them, first operand first (INT's is not kept by `Instr`, so none is written). -/
def Instr.operandsText (i : Instr) : List String :=
  match i with
  | .ldi r imm => [regText r, toString imm.toNat]
  | .pra a => [regText a]
  | i => i.regOperands.map regText

/-- The instruction as assembly text: the mnemonic, then the operands separated by a comma. -/
def assembly (i : Instr) : String :=
  let name := (mnemonicOf opcodeMap i.opcode).getD ""
  match i.operandsText with
  | [] => name
  | ops => name ++ " " ++ ",".intercalate ops

end Sys2Proof
end

