-- ==== Sys2Proof/Machine/State.lean ====
section
/-! DEFINITION. The state of the machine: every piece of state 10_state, 20_memory and 60_exceptions give it, as plain
data, its reset value, and the host-level reasons a step can stop. -/

namespace Sys2Proof.Machine

/-- The run state (10_state R38). -/
inductive RunState where
  | running
  | halted
  | faulted
  deriving DecidableEq, Repr

/-- The flags register FL: E is bit 0, G bit 1, L bit 2 (10_state R33). -/
structure Flags where
  e : Bool
  g : Bool
  l : Bool
  deriving DecidableEq, Repr

/-- The fault record, in the layout of 60_exceptions R201. It is meaningful only in FAULTED (10_state R39). -/
structure FaultRecord where
  kind : BitVec 3
  oobSpace : BitVec 1
  faultPc : BitVec 9
  detail : BitVec 9
  deriving DecidableEq, Repr

/-- Memory as the cells that differ from `unwrittenByte`, by strictly rising address. -/
abbrev Memory := List Host.Cell

/-- The machine's state. -/
structure State where
  /-- `x[0]`..`x[7]`; `x[7]` is SP (10_state R20, R23). -/
  regs : Vector Byte 8
  /-- The program counter (10_state R28, R29). -/
  pc : PcWord
  /-- FL (10_state R33). -/
  flags : Flags
  /-- The run state (10_state R38). -/
  runState : RunState
  /-- The fault record (10_state R39, 60_exceptions R201). -/
  faultRecord : FaultRecord
  /-- The output events so far, oldest first (00_scope R9). -/
  output : List Byte
  /-- The 256-byte memory (20_memory R40). -/
  memory : Memory
  deriving DecidableEq, Repr

/-- The machine while its reset input is asserted: it takes no step, the host may write its memory, and nothing but
memory lasts to the release (70_reset_and_hazards R230, R233). The host reads the output stream and the status output
then too (00_scope R10); what they show is a DESIGN CHOICE (log 21): what they last showed, until the release. -/
structure HeldInReset where
  /-- The memory, which the host may write. -/
  memory : Memory
  /-- The run state on the status output. -/
  runState : RunState
  /-- The fault record on the status output, presented in FAULTED. -/
  faultRecord : FaultRecord
  /-- The output events so far, oldest first. -/
  output : List Byte
  deriving DecidableEq, Repr

/-- Why a step has no next state. The four faults of the spec are not here: they are next states, in FAULTED. -/
inductive Fault where
  /-- `step` in HALTED: no step is taken until reset (10_state R38, 60_exceptions R216). Safe: the model stops. -/
  | halted
  /-- `step` in FAULTED: no step is taken until reset (60_exceptions R202). Safe: the model stops. -/
  | faulted
  deriving DecidableEq, Repr

/-- Refusals. -/
inductive Refusal where
  /-- An instruction without a meaning yet. Raised by no arm: every instruction has its meaning. Safe. -/
  | notModelled (mnemonic : String)
  deriving DecidableEq, Repr

/-- FL at reset (10_state R36). -/
def Flags.reset : Flags := ⟨false, false, false⟩

/-- The fault record at reset. DESIGN CHOICE, unsafe (log 2): the spec leaves it unspecified (10_state R39). -/
def FaultRecord.reset : FaultRecord := ⟨0, 0, 0, 0⟩

/-- The registers at reset (10_state R27). -/
def resetRegs : Vector Byte 8 := #v[0, 0, 0, 0, 0, 0, 0, spReset]

/-- The machine right after reset (70_reset_and_hazards R231), no program loaded: every address reads 0 (R233). -/
def State.reset : State where
  regs := resetRegs
  pc := 0
  flags := Flags.reset
  runState := .running
  faultRecord := FaultRecord.reset
  output := []
  memory := []

end Sys2Proof.Machine
end

