-- ==== Sys2Proof/Machine/Ops.lean ====
section
/-! DEFINITION. The named operations every meaning is written over: the pseudocode primitives of 00_scope R13, the
memory port, the register file, the program-counter sequencer, the stack unit, the output port, and taking a fault.
There is no return from a fault (60_exceptions R209). -/

namespace Sys2Proof.Machine

/-- What a meaning answers. -/
abbrev Result := Host.Outcome State Fault Refusal

/-- The named parameters in force: the spec's defaults (92_eei_decisions; log 9). -/
def policy : Config := Config.default

/-- `u8(v)`: `v mod 256` as a byte (00_scope R12). -/
def u8 (v : Int) : Byte := BitVec.ofInt 8 v

/-! ### Memory (20_memory) -/

/-- The byte at an address, where nothing is listed `unwrittenByte`. -/
def Memory.get : Memory → Nat → Byte
  | [], _ => unwrittenByte
  | (k, v) :: m, a => if k = a then v else Memory.get m a

/-- Put a cell in its place by rising address; a cell equal to what an unlisted address reads as is not listed. -/
def Memory.insert : Memory → Nat → Byte → Memory
  | [], a, v => if v = unwrittenByte then [] else [(a, v)]
  | (k, w) :: m, a, v =>
    if a < k then
      if v = unwrittenByte then (k, w) :: m else (a, v) :: (k, w) :: m
    else (k, w) :: Memory.insert m a v

/-- Write one byte: drop the old cell of that address, then put the new one. -/
def Memory.set (m : Memory) (a : Nat) (v : Byte) : Memory :=
  Memory.insert (m.filter (fun c => decide (c.1 ≠ a))) a v

/-- Write bytes at consecutive addresses, those inside memory (20_memory R40). -/
def Memory.setBytes (m : Memory) (a : Nat) : List Byte → Memory
  | [] => m
  | v :: vs => Memory.setBytes (if a ≤ maxAddr then Memory.set m a v else m) (a + 1) vs

/-- Addresses strictly rise from `low`, lie inside memory, and no cell holds what an unlisted address reads as. -/
def Memory.wfFrom (low : Nat) : Memory → Bool
  | [] => true
  | (k, v) :: m => decide (low ≤ k) && decide (k ≤ maxAddr) && decide (v ≠ unwrittenByte) && Memory.wfFrom (k + 1) m

/-- The canonical form of memory. -/
def Memory.wf (m : Memory) : Bool := Memory.wfFrom 0 m

/-! ### Taking a fault (60_exceptions) -/

/-- The causes of a fault, each with what it reports (60_exceptions R203 to R206). -/
inductive FaultCause where
  | outOfBoundsMemory (addr : Nat)
  | outOfBoundsRegister (index : Byte)
  | divideByZero (divisor : Byte)
  | unsupportedOperation (op : Byte)
  | illegalInstruction (op : Byte)
  deriving DecidableEq, Repr

/-- The fault code (60_exceptions R201). -/
def FaultCause.kind : FaultCause → BitVec 3
  | .outOfBoundsMemory _ => 1
  | .outOfBoundsRegister _ => 1
  | .divideByZero _ => 2
  | .unsupportedOperation _ => 3
  | .illegalInstruction _ => 4

/-- The space of an OutOfBounds: 0 an address, 1 a register index, 0 for the other kinds (60_exceptions R201). -/
def FaultCause.oobSpace : FaultCause → BitVec 1
  | .outOfBoundsMemory _ => 0
  | .outOfBoundsRegister _ => 1
  | .divideByZero _ => 0
  | .unsupportedOperation _ => 0
  | .illegalInstruction _ => 0

/-- The detail (60_exceptions R201, R203 to R206). -/
def FaultCause.detail : FaultCause → BitVec 9
  | .outOfBoundsMemory addr => BitVec.ofNat 9 addr
  | .outOfBoundsRegister index => index.setWidth 9
  | .divideByZero divisor => divisor.setWidth 9
  | .unsupportedOperation op => op.setWidth 9
  | .illegalInstruction op => op.setWidth 9

/-- The fault record of a cause in a step that began at `pc` (60_exceptions R201). -/
def FaultCause.record (c : FaultCause) (pc : PcWord) : FaultRecord where
  kind := c.kind
  oobSpace := c.oobSpace
  faultPc := pc
  detail := c.detail

/-- The state a fault leaves: FAULTED with the record written, nothing else changed (60_exceptions R202). -/
def faultedState (c : FaultCause) (s : State) : State :=
  { s with runState := .faulted, faultRecord := c.record s.pc }

/-- Take a fault in the step that began in `s` (00_scope R13 `raise`, 60_exceptions R202, R208). -/
def raise (c : FaultCause) (s : State) : Result := .next (faultedState c s)

/-- End an instruction that began in `s`: its new state, or the fault it raised before any write (60_exceptions R202). -/
def conclude (s : State) : Except FaultCause State → Result
  | .ok t => .next t
  | .error c => raise c s

/-! ### Registers, memory port, output, program counter -/

/-- `x[i]` (00_scope R13). -/
def readReg (i : Fin 8) (s : State) : Byte := s.regs.get i

/-- Set a register to a byte. -/
def State.setReg (s : State) (i : Fin 8) (v : Byte) : State := { s with regs := s.regs.set i v }

/-- `x[i] <- v`: the register gets `u8(v)` (00_scope R13, 10_state R21). -/
def writeReg (i : Fin 8) (v : Int) (s : State) : State := s.setReg i (u8 v)

/-- The stack pointer, `x[7]` (00_scope R13). -/
def readSp (s : State) : Byte := readReg spIndex s

/-- `MemRead(a, 1)` (00_scope R13, 20_memory R42). -/
def memRead (a : Nat) (s : State) : Except FaultCause Byte :=
  if a ≤ maxAddr then .ok (Memory.get s.memory a) else .error (.outOfBoundsMemory a)

/-- Set the byte at an address. -/
def State.setByte (s : State) (a : Nat) (v : Byte) : State := { s with memory := Memory.set s.memory a v }

/-- `MemWrite(a, 1, v)` (00_scope R13, 20_memory R42). -/
def memWrite (a : Nat) (v : Byte) (s : State) : Except FaultCause State :=
  if a ≤ maxAddr then .ok (s.setByte a v) else .error (.outOfBoundsMemory a)

/-- `emit(v)`: append one output event (00_scope R13, R9). -/
def emit (v : Byte) (s : State) : State := { s with output := s.output ++ [v] }

/-- `FL <- f` (00_scope R13). -/
def State.setFlags (s : State) (f : Flags) : State := { s with flags := f }

/-- `pc <- t`; `pc` never wraps in the states the machine reaches (10_state R29). -/
def setPc (t : Nat) (s : State) : State := { s with pc := BitVec.ofNat 9 t }

/-- The sequencer's generic advance past an instruction of `n` operand bytes (40_engine_cycle R88). -/
def advance (n : Nat) (s : State) : State := setPc (s.pc.toNat + 1 + n) s

/-- `halt`: HALTED, with `pc` as PC_AFTER_HLT says (40_engine_cycle R86, 92 D21). -/
def halt (p : PcAfterHlt) (s : State) : State :=
  match p with
  | .atHlt => { s with runState := .halted }
  | .afterHlt => { advance 0 s with runState := .halted }

/-! ### The stack unit (42_data_transfer R143) -/

/-- The push address `u8(SP - 1)`. -/
def pushAddr (s : State) : Byte := u8 ((readSp s).toNat - 1 : Int)

/-- `SP <- u8(SP - 1)`, the first half of a push. -/
def decSp (s : State) : State := writeReg spIndex ((readSp s).toNat - 1 : Int) s

/-- `SP <- u8(SP + 1)`, the last half of a pop. -/
def incSp (s : State) : State := writeReg spIndex ((readSp s).toNat + 1 : Int) s

/-- The byte on top of the stack. -/
def stackTop (s : State) : Except FaultCause Byte := memRead (readSp s).toNat s

end Sys2Proof.Machine
end

