-- ==== Sys2Proof/Machine/Flags.lean ====
section
/-! DEFINITION. The flags register: the comparison that writes it, the byte view, and the conditions that read it. -/

namespace Sys2Proof.Machine

/-- The unsigned comparison of CMP: exactly one flag is set (41_alu R113). -/
def compareFlags (x y : Byte) : Flags :=
  if x.toNat = y.toNat then ⟨true, false, false⟩
  else if y.toNat < x.toNat then ⟨false, true, false⟩
  else ⟨false, false, true⟩

/-- FL as a byte: E bit 0, G bit 1, L bit 2, bits 7..3 zero (10_state R33). -/
def Flags.toByte (f : Flags) : Byte :=
  BitVec.ofNat 8 (f.e.toNat + 2 * f.g.toNat + 4 * f.l.toNat)

/-- JEQ's condition (43_control_flow R173). -/
def Flags.eq (f : Flags) : Bool := f.e

/-- JNE's condition (43_control_flow R174). -/
def Flags.ne (f : Flags) : Bool := !f.e

/-- JGT's condition (43_control_flow R175). -/
def Flags.gt (f : Flags) : Bool := f.g

/-- JLT's condition (43_control_flow R176). -/
def Flags.lt (f : Flags) : Bool := f.l

/-- JLE's condition (43_control_flow R177). -/
def Flags.le (f : Flags) : Bool := f.l || f.e

/-- JGE's condition (43_control_flow R178). -/
def Flags.ge (f : Flags) : Bool := f.g || f.e

end Sys2Proof.Machine
end

