-- ==== Sys2Proof/Machine/Operands.lean ====
section
/-! DEFINITION. The operand forms (30_encoding R67, R68) and the check of register operands (40_engine_cycle R85):
how an instruction's operand bytes become register indices before its rule runs. -/

namespace Sys2Proof.Machine

/-- A register operand: the whole byte as an index, OutOfBounds (REGISTER) above 7 (10_state R26). -/
def regIndex (b : Byte) : Except FaultCause (Fin 8) :=
  if h : b.toNat < 8 then .ok ⟨b.toNat, h⟩ else .error (.outOfBoundsRegister b)

/-- Format R, and the register operand of format RI: check `a`, then run the rule. -/
def withReg (a : Byte) (s : State) (rule : Fin 8 → Except FaultCause State) : Result :=
  match regIndex a with
  | .error c => raise c s
  | .ok i => conclude s (rule i)

/-- Format RR: check `a`, then `b`, then run the rule. -/
def withRegs (a b : Byte) (s : State) (rule : Fin 8 → Fin 8 → Except FaultCause State) : Result :=
  match regIndex a with
  | .error c => raise c s
  | .ok i =>
    match regIndex b with
    | .error c => raise c s
    | .ok j => conclude s (rule i j)

/-- The operand of a stack-using instruction under R7_OPERAND: sequential accepts every register, fault rejects R7
(92 D14). -/
def stackOperand (p : R7Operand) (i : Fin 8) : Except FaultCause (Fin 8) :=
  match p with
  | .sequential => .ok i
  | .fault => if i = spIndex then .error (.outOfBoundsRegister 7#8) else .ok i

end Sys2Proof.Machine
end

