-- ==== Sys2Proof/Machine/Alu.lean ====
section
/-! DEFINITION. The fourteen ALU instructions (41_alu). Each operation is an exact integer on unsigned operands; the
register write reduces it (R116). -/

namespace Sys2Proof.Machine

/-- A two-register ALU rule: `x[a] <- f(x[a], x[b])`, then the generic advance (41_alu R100, 40_engine_cycle R88). -/
def aluRR (f : Byte → Byte → Int) (ra rb : Byte) (s : State) : Result :=
  withRegs ra rb s fun a b => .ok (advance 2 (writeReg a (f (readReg a s) (readReg b s)) s))

/-- A two-register ALU rule that raises DivideByZero on a zero divisor, before any write (41_alu R104, R105). -/
def aluDivide (f : Byte → Byte → Int) (ra rb : Byte) (s : State) : Result :=
  withRegs ra rb s fun a b =>
    if readReg b s = 0#8 then .error (.divideByZero rb)
    else .ok (advance 2 (writeReg a (f (readReg a s) (readReg b s)) s))

/-- A one-register ALU rule: `x[a] <- f(x[a])`, no second operand (41_alu R118). -/
def aluR (f : Byte → Int) (r : Byte) (s : State) : Result :=
  withReg r s fun a => .ok (advance 1 (writeReg a (f (readReg a s)) s))

/-- `x + y`. -/
def aluAdd (x y : Byte) : Int := (x.toNat : Int) + y.toNat

/-- `x - y`. -/
def aluSub (x y : Byte) : Int := (x.toNat : Int) - y.toNat

/-- `x * y`. -/
def aluMul (x y : Byte) : Int := (x.toNat : Int) * y.toNat

/-- `floor(x / y)`. -/
def aluDiv (x y : Byte) : Int := ((x.toNat / y.toNat : Nat) : Int)

/-- `x mod y`. -/
def aluMod (x y : Byte) : Int := ((x.toNat % y.toNat : Nat) : Int)

/-- `x + 1`. -/
def aluInc (x : Byte) : Int := (x.toNat : Int) + 1

/-- `x - 1`. -/
def aluDec (x : Byte) : Int := (x.toNat : Int) - 1

/-- `x & y`. -/
def aluAnd (x y : Byte) : Int := ((x &&& y).toNat : Int)

/-- `x | y`. -/
def aluOr (x y : Byte) : Int := ((x ||| y).toNat : Int)

/-- `x ^ y`. -/
def aluXor (x y : Byte) : Int := ((x ^^^ y).toNat : Int)

/-- `~x`, that is `255 - x`. -/
def aluNot (x : Byte) : Int := 255 - (x.toNat : Int)

/-- `x << y`, the amount the whole value of `y`. -/
def aluShl (x y : Byte) : Int := ((x.toNat * 2 ^ y.toNat : Nat) : Int)

/-- `x >> y`, logical, the amount the whole value of `y`. -/
def aluShr (x y : Byte) : Int := ((x.toNat / 2 ^ y.toNat : Nat) : Int)

/-- ADD (R101). -/
def execAdd (ra rb : Byte) (s : State) : Result := aluRR aluAdd ra rb s

/-- SUB (R102). -/
def execSub (ra rb : Byte) (s : State) : Result := aluRR aluSub ra rb s

/-- MUL (R103). -/
def execMul (ra rb : Byte) (s : State) : Result := aluRR aluMul ra rb s

/-- DIV (R104). -/
def execDiv (ra rb : Byte) (s : State) : Result := aluDivide aluDiv ra rb s

/-- MOD (R105). -/
def execMod (ra rb : Byte) (s : State) : Result := aluDivide aluMod ra rb s

/-- INC (R106). -/
def execInc (r : Byte) (s : State) : Result := aluR aluInc r s

/-- DEC (R107). -/
def execDec (r : Byte) (s : State) : Result := aluR aluDec r s

/-- AND (R108). -/
def execAnd (ra rb : Byte) (s : State) : Result := aluRR aluAnd ra rb s

/-- OR (R109). -/
def execOr (ra rb : Byte) (s : State) : Result := aluRR aluOr ra rb s

/-- XOR (R110). -/
def execXor (ra rb : Byte) (s : State) : Result := aluRR aluXor ra rb s

/-- SHL (R111). -/
def execShl (ra rb : Byte) (s : State) : Result := aluRR aluShl ra rb s

/-- SHR (R112). -/
def execShr (ra rb : Byte) (s : State) : Result := aluRR aluShr ra rb s

/-- NOT (R115). -/
def execNot (r : Byte) (s : State) : Result := aluR aluNot r s

/-- CMP (R113, R114): writes FL and no register. -/
def execCmp (ra rb : Byte) (s : State) : Result :=
  withRegs ra rb s fun a b => .ok (advance 2 (s.setFlags (compareFlags (readReg a s) (readReg b s))))

end Sys2Proof.Machine
end

