-- ==== Sys2Proof/Machine/Control.lean ====
section
/-! DEFINITION. HLT (40_engine_cycle R86) and the control-flow instructions (43_control_flow), which set `pc`
themselves. None writes FL. -/

namespace Sys2Proof.Machine

/-- HLT (40_engine_cycle R86). -/
def execHlt (s : State) : Result := .next (halt policy.pcAfterHlt s)

/-- The rule of CALL (R170): the return address is checked before any write; then SP is decremented, the return address
pushed, and `pc` set to `x[a]` as it now is. -/
def callRule (a : Fin 8) (s : State) : Except FaultCause State :=
  let retAddr := s.pc.toNat + 2
  if maxAddr < retAddr then .error (.outOfBoundsMemory retAddr)
  else
    let t := decSp s
    match memWrite (readSp t).toNat (u8 retAddr) t with
    | .error c => .error c
    | .ok u => .ok (setPc (readReg a u).toNat u)

/-- CALL (R170). -/
def execCall (r : Byte) (s : State) : Result :=
  withReg r s fun a =>
    match stackOperand policy.r7Operand a with
    | .error c => .error c
    | .ok a => callRule a s

/-- RET (R171): `pc` from the top of the stack, then increment SP. -/
def execRet (s : State) : Result :=
  conclude s <|
    match stackTop s with
    | .error c => .error c
    | .ok v => .ok (incSp (setPc v.toNat s))

/-- JMP (R172). -/
def execJmp (r : Byte) (s : State) : Result :=
  withReg r s fun a => .ok (setPc (readReg a s).toNat s)

/-- A conditional jump: to `x[a]` if the condition holds, else past the operand byte (R182). -/
def condJump (cond : Bool) (r : Byte) (s : State) : Result :=
  withReg r s fun a => .ok (if cond then setPc (readReg a s).toNat s else advance 1 s)

/-- A jump the source leaves a stub, under STUB_JUMPS: implemented, or changing nothing at all (92 D8). -/
def stubJump (p : StubJumps) (cond : Bool) (r : Byte) (s : State) : Result :=
  match p with
  | .implement => condJump cond r s
  | .hang => withReg r s fun _ => .ok s

/-- JEQ (R173). -/
def execJeq (r : Byte) (s : State) : Result := condJump s.flags.eq r s

/-- JNE (R174). -/
def execJne (r : Byte) (s : State) : Result := condJump s.flags.ne r s

/-- JGT (R175). -/
def execJgt (r : Byte) (s : State) : Result := stubJump policy.stubJumps s.flags.gt r s

/-- JLT (R176). -/
def execJlt (r : Byte) (s : State) : Result := stubJump policy.stubJumps s.flags.lt r s

/-- JLE (R177). -/
def execJle (r : Byte) (s : State) : Result := stubJump policy.stubJumps s.flags.le r s

/-- JGE (R178). -/
def execJge (r : Byte) (s : State) : Result := stubJump policy.stubJumps s.flags.ge r s

/-- INT (R179): always IllegalInstruction. -/
def execInt (s : State) : Result := raise (.illegalInstruction 0x52#8) s

/-- IRET (R180): always IllegalInstruction. -/
def execIret (s : State) : Result := raise (.illegalInstruction 0x13#8) s

end Sys2Proof.Machine
end

