-- ==== Sys2Proof/Machine/Transfer.lean ====
section
/-! DEFINITION. Data transfer, stack and output instructions (42_data_transfer). None writes FL; each ends with the
generic advance (40_engine_cycle R88). -/

namespace Sys2Proof.Machine

/-- NOP (R141). -/
def execNop (s : State) : Result := .next (advance 0 s)

/-- LDI (R142): the immediate is not checked as a register. -/
def execLdi (r imm : Byte) (s : State) : Result :=
  withReg r s fun a => .ok (advance 2 (writeReg a imm.toNat s))

/-- LD (R146): `x[a] <- MemRead(x[b], 1)`. -/
def execLd (ra rb : Byte) (s : State) : Result :=
  withRegs ra rb s fun a b =>
    match memRead (readReg b s).toNat s with
    | .error c => .error c
    | .ok v => .ok (advance 2 (writeReg a v.toNat s))

/-- ST (R147): `MemWrite(x[a], 1, x[b])`. -/
def execSt (ra rb : Byte) (s : State) : Result :=
  withRegs ra rb s fun a b =>
    match memWrite (readReg a s).toNat (readReg b s) s with
    | .error c => .error c
    | .ok t => .ok (advance 2 t)

/-- The rule of PUSH (R148): decrement SP, then write `x[a]` as it now is at SP as it now is. -/
def pushRule (a : Fin 8) (s : State) : Except FaultCause State :=
  let t := decSp s
  match memWrite (readSp t).toNat (readReg a t) t with
  | .error c => .error c
  | .ok u => .ok (advance 1 u)

/-- PUSH (R148). -/
def execPush (r : Byte) (s : State) : Result :=
  withReg r s fun a =>
    match stackOperand policy.r7Operand a with
    | .error c => .error c
    | .ok a => pushRule a s

/-- The rule of POP (R149): read at SP, write `x[a]`, then increment SP as it now is. -/
def popRule (a : Fin 8) (s : State) : Except FaultCause State :=
  match stackTop s with
  | .error c => .error c
  | .ok v => .ok (advance 1 (incSp (writeReg a v.toNat s)))

/-- POP (R149). -/
def execPop (r : Byte) (s : State) : Result :=
  withReg r s fun a =>
    match stackOperand policy.r7Operand a with
    | .error c => .error c
    | .ok a => popRule a s

/-- PRN (R151): emit `x[a]`. -/
def execPrn (r : Byte) (s : State) : Result :=
  withReg r s fun a => .ok (advance 1 (emit (readReg a s) s))

/-- PRA (R152): a no-op whose operand byte is fetched and neither interpreted nor checked. -/
def execPra (_operand : Byte) (s : State) : Result := .next (advance 1 s)

end Sys2Proof.Machine
end

