-- ==== Sys2Proof/Machine/Dispatch.lean ====
section
/-! DEFINITION. One arm per instruction (40_engine_cycle R87). -/

namespace Sys2Proof.Machine

def exec (i : Instr) (s : State) : Host.Outcome State Fault Refusal :=
  match i with
  -- format Z
  | .nop => Sys2Proof.Machine.execNop s
  | .hlt => Sys2Proof.Machine.execHlt s
  | .ret => Sys2Proof.Machine.execRet s
  | .iret => Sys2Proof.Machine.execIret s
  -- format R
  | .push r => Sys2Proof.Machine.execPush r s
  | .pop r => Sys2Proof.Machine.execPop r s
  | .prn r => Sys2Proof.Machine.execPrn r s
  | .pra operand => Sys2Proof.Machine.execPra operand s
  | .call r => Sys2Proof.Machine.execCall r s
  | .int => Sys2Proof.Machine.execInt s
  | .jmp r => Sys2Proof.Machine.execJmp r s
  | .jeq r => Sys2Proof.Machine.execJeq r s
  | .jne r => Sys2Proof.Machine.execJne r s
  | .jgt r => Sys2Proof.Machine.execJgt r s
  | .jlt r => Sys2Proof.Machine.execJlt r s
  | .jle r => Sys2Proof.Machine.execJle r s
  | .jge r => Sys2Proof.Machine.execJge r s
  | .inc r => Sys2Proof.Machine.execInc r s
  | .dec r => Sys2Proof.Machine.execDec r s
  | .not r => Sys2Proof.Machine.execNot r s
  -- format RI
  | .ldi r imm => Sys2Proof.Machine.execLdi r imm s
  -- format RR
  | .ld ra rb => Sys2Proof.Machine.execLd ra rb s
  | .st ra rb => Sys2Proof.Machine.execSt ra rb s
  | .add ra rb => Sys2Proof.Machine.execAdd ra rb s
  | .sub ra rb => Sys2Proof.Machine.execSub ra rb s
  | .mul ra rb => Sys2Proof.Machine.execMul ra rb s
  | .div ra rb => Sys2Proof.Machine.execDiv ra rb s
  | .mod ra rb => Sys2Proof.Machine.execMod ra rb s
  | .cmp ra rb => Sys2Proof.Machine.execCmp ra rb s
  | .and ra rb => Sys2Proof.Machine.execAnd ra rb s
  | .or ra rb => Sys2Proof.Machine.execOr ra rb s
  | .xor ra rb => Sys2Proof.Machine.execXor ra rb s
  | .shl ra rb => Sys2Proof.Machine.execShl ra rb s
  | .shr ra rb => Sys2Proof.Machine.execShr ra rb s

end Sys2Proof.Machine
end

