-- ==== Sys2Proof/Machine/Fetch.lean ====
section
/-! DEFINITION. Fetching and decoding the instruction at `pc` (40_engine_cycle R81 to R84), what the engine does where
the bytes are no instruction, what a stopped machine does, and placing an instruction where the next fetch finds it. -/

namespace Sys2Proof.Machine

/-- Byte `k` of the instruction at `pc`, `none` outside memory (40_engine_cycle R81, R83). -/
def fetchByte (s : State) (k : Nat) : Option Byte :=
  match memRead (s.pc.toNat + k) s with
  | .ok v => some v
  | .error _ => none

/-- Fetch and decode the instruction at `pc`; a store is seen by the next fetch (20_memory R51). -/
def fetchDecode (s : State) : Except DecodeError Instr := decodeFrom opcodeMap (fetchByte s)

/-- An undefined opcode with bit 5 clear under ILLEGAL_POLICY: the fault, or an advance by `1 + op[7:6]` (92 D7). -/
def illegalOpcode (p : IllegalPolicy) (op : Byte) (s : State) : Result :=
  match p with
  | .fault => raise (.illegalInstruction op) s
  | .skip => .next (advance (opOperandCount op) s)

/-- The engine's answer to bytes that are no instruction (40_engine_cycle R81, R83, R84; 60_exceptions R203, R205, R206). -/
def undecoded (e : DecodeError) (s : State) : Result :=
  match e with
  | .missingByte k => raise (.outOfBoundsMemory (s.pc.toNat + k)) s
  | .unsupportedOperation op => raise (.unsupportedOperation op) s
  | .illegalInstruction op => illegalOpcode policy.illegalPolicy op s

/-- In HALTED no step is taken (10_state R38, 60_exceptions R216; log 4). -/
def stoppedHalted (_s : State) : Result := .fault .halted

/-- In FAULTED no step is taken (60_exceptions R202; log 4). -/
def stoppedFaulted (_s : State) : Result := .fault .faulted

/-- The state with an instruction's bytes at `pc`, RUNNING, so that the next step fetches it (log 13). -/
def placeInstruction (s : State) (bytes : List Byte) : State :=
  { s with runState := .running, memory := Memory.setBytes s.memory s.pc.toNat bytes }

end Sys2Proof.Machine
end

