-- ==== Sys2Proof/Machine/Step.lean ====
section
/-! DEFINITION. One step of the engine (40_engine_cycle R80, R90). -/

namespace Sys2Proof.Machine

/-- One step: in RUNNING fetch, decode and execute one instruction; in HALTED and FAULTED no step is taken. -/
def step (s : State) : Host.Outcome State Fault Refusal :=
  match s.runState with
  | .halted => stoppedHalted s
  | .faulted => stoppedFaulted s
  | .running =>
    match fetchDecode s with
    | .error e => undecoded e s
    | .ok i => exec i s

/-- `s` with an instruction, numbered as the opcode table numbers it, stored where `step` fetches its next one. -/
def State.withFetchWord (s : State) (nbits w : Nat) : State := placeInstruction s (tableBytes nbits w)

end Sys2Proof.Machine
end

