-- ==== Sys2Proof/Machine/HostPort.lean ====
section
/-! DEFINITION. What the world outside the block does to it and sees of it: the reset input and loading
(70_reset_and_hazards R230 to R233), the status output (00_scope R9), the printed text and exit status
(60_exceptions R217), the result of a run (70_reset_and_hazards R235) and the program file (30_encoding R76). -/

namespace Sys2Proof.Machine

/-! ### Reset and loading -/

/-- Assert the reset input, in any run state (R230). Memory is kept (R233), and the host's outputs stand until the release
(log 21). -/
def State.assertReset (s : State) : HeldInReset where
  memory := s.memory
  runState := s.runState
  faultRecord := s.faultRecord
  output := s.output

/-- Release the reset input: the reset state of R231 over the memory the host left. -/
def HeldInReset.release (h : HeldInReset) : State := { State.reset with memory := h.memory }

/-- The host writes one byte while reset is held (00_scope R10); `none` outside memory (20_memory R42). -/
def HeldInReset.hostWrite (h : HeldInReset) (a : Nat) (v : Byte) : Option HeldInReset :=
  if a ≤ maxAddr then some { h with memory := Memory.set h.memory a v } else none

/-- The loader: the program's bytes from address 0 in order, 0 everywhere else; `none` above 256 bytes (R233). -/
def HeldInReset.load (h : HeldInReset) (program : List Byte) : Option HeldInReset :=
  if program.length ≤ maxAddr + 1 then some { h with memory := Memory.setBytes [] 0 program } else none

/-! ### The program file (30_encoding R76; white space and malformed lines: log 14) -/

/-- Eight binary digits as a byte, most significant first. -/
def bitsValue : List Char → Option Nat → Option Nat
  | [], acc => acc
  | c :: cs, acc =>
    match acc with
    | none => none
    | some v => if c = '0' then bitsValue cs (some (2 * v)) else if c = '1' then bitsValue cs (some (2 * v + 1)) else none

/-- The characters of a line before its comment. -/
def stripComment : List Char → List Char
  | [] => []
  | c :: cs => if c = '#' then [] else c :: stripComment cs

/-- White space removed at both ends. -/
def trimLine (cs : List Char) : List Char :=
  ((cs.dropWhile Char.isWhitespace).reverse.dropWhile Char.isWhitespace).reverse

/-- One line: `some none` for a blank or comment-only line, `some (some b)` for a byte, `none` for anything else. -/
def parseLine (line : List Char) : Option (Option Byte) :=
  let body := trimLine (stripComment line)
  if body = [] then some none
  else if body.length = 8 then
    match bitsValue body (some 0) with
    | some v => some (some (BitVec.ofNat 8 v))
    | none => none
  else none

/-- The bytes of a program file, in file order. -/
def parseProgram : List (List Char) → Option (List Byte)
  | [] => some []
  | line :: lines =>
    match parseLine line, parseProgram lines with
    | some none, some bytes => some bytes
    | some (some b), some bytes => some (b :: bytes)
    | _, _ => none

/-- Load a program file while reset is held. -/
def HeldInReset.loadFile (h : HeldInReset) (lines : List (List Char)) : Option HeldInReset :=
  match parseProgram lines with
  | some program => h.load program
  | none => none

/-! ### What the host sees -/

/-- The status output of a run state and a fault record: the record is presented in FAULTED only
(00_scope R9, 60_exceptions R201). -/
def presentStatus (r : RunState) (record : FaultRecord) : RunState × Option FaultRecord :=
  match r with
  | .faulted => (.faulted, some record)
  | r => (r, none)

/-- The status output (00_scope R9), which the host reads at any time (R10). -/
def statusOutput (s : State) : RunState × Option FaultRecord := presentStatus s.runState s.faultRecord

/-- The status output while reset is held (00_scope R10, log 21). -/
def HeldInReset.statusOutput (h : HeldInReset) : RunState × Option FaultRecord := presentStatus h.runState h.faultRecord

/-- How the host's process ends. -/
inductive ExitStatus where
  | normal
  | failure
  deriving DecidableEq, Repr

/-- HALTED is normal exit, FAULTED of any kind failure exit, RUNNING no exit yet (60_exceptions R217). -/
def exitStatus (s : State) : Option ExitStatus :=
  match s.runState with
  | .running => none
  | .halted => some .normal
  | .faulted => some .failure

/-- The printed lines of output events: each byte in unsigned decimal, one line each, in order (42_data_transfer R151,
92 D25). DESIGN CHOICE (log 20): every line, the last too, ends in one line feed. -/
def printedLines (events : List Byte) : String := String.join (events.map fun b => toString b.toNat ++ "\n")

/-- The printed output (42_data_transfer R151; its line ending: log 20). -/
def printedText (s : State) : String := printedLines s.output

/-- The printed output while reset is held (00_scope R10, log 21). -/
def HeldInReset.printedText (h : HeldInReset) : String := printedLines h.output

/-- The result of a run (70_reset_and_hazards R235). -/
structure RunResult where
  runState : RunState
  faultRecord : Option FaultRecord
  output : List Byte
  regs : Vector Byte 8
  flags : Flags
  pc : PcWord
  memory : Memory
  deriving DecidableEq, Repr

/-- The result of a run, once the run state has left RUNNING (70_reset_and_hazards R235). -/
def runResult (s : State) : Option RunResult :=
  match s.runState with
  | .running => none
  | .halted => some ⟨.halted, none, s.output, s.regs, s.flags, s.pc, s.memory⟩
  | .faulted => some ⟨.faulted, some s.faultRecord, s.output, s.regs, s.flags, s.pc, s.memory⟩

end Sys2Proof.Machine
end

