-- ==== Sys2Proof/Safety.lean ====
section
/-! DEFINITION. The terms claims are stated in: reading one byte, what lies at `pc`, frames, fault entries, safe and
legal states, and the opcode lists of 30_encoding R64 written out apart from the decoder's table. -/

namespace Sys2Proof.Machine

/-- One byte of memory. -/
def readByte (a : Nat) (s : State) : Byte := Memory.get s.memory a

/-- The operand byte that names register `i`. -/
def regByte (i : Fin 8) : Byte := BitVec.ofNat 8 i.val

/-- These bytes lie in memory at `pc`, `pc + 1`, and so on (30_encoding R61). -/
def BytesAt (s : State) (bytes : List Byte) : Prop :=
  ∀ k (h : k < bytes.length), s.pc.toNat + k ≤ 255 ∧ readByte (s.pc.toNat + k) s = bytes[k]

/-! ### Frames -/

/-- Every register but the listed ones is unchanged. -/
def KeepsRegsBut (written : List (Fin 8)) (s t : State) : Prop :=
  ∀ i, i ∉ written → readReg i t = readReg i s

/-- Every byte of memory is unchanged. -/
def KeepsMemory (s t : State) : Prop := ∀ a, readByte a t = readByte a s

/-- Every byte of memory but the one at address `a` is unchanged. -/
def KeepsMemoryBut (a : Nat) (s t : State) : Prop := ∀ b, b ≠ a → readByte b t = readByte b s

/-- The three flags, the output stream, the run state and the fault record are unchanged. -/
def KeepsFlagsOutputStatus (s t : State) : Prop :=
  t.flags = s.flags ∧ t.output = s.output ∧ t.runState = s.runState ∧ t.faultRecord = s.faultRecord

/-- `pc` moved past an instruction of `n` operand bytes that lies in memory, without wrapping (40_engine_cycle R88). -/
def AdvancedPast (n : Nat) (s t : State) : Prop := s.pc.toNat + n ≤ 255 → t.pc.toNat = s.pc.toNat + 1 + n

/-- The instruction completes with register `ra` holding `v` and `pc` past its `n` operand bytes, and nothing else
changes. -/
def WritesOneReg (i : Instr) (n : Nat) (ra : Fin 8) (v : Nat) (s : State) : Prop :=
  ∃ t, exec i s = .next t ∧ (readReg ra t).toNat = v ∧ AdvancedPast n s t ∧ KeepsRegsBut [ra] s t ∧ KeepsMemory s t ∧
    KeepsFlagsOutputStatus s t

/-- The instruction completes with `pc` at `target` and nothing else changes. -/
def JumpsTo (i : Instr) (target : Nat) (s : State) : Prop :=
  ∃ t, exec i s = .next t ∧ t.pc.toNat = target ∧ KeepsRegsBut [] s t ∧ KeepsMemory s t ∧ KeepsFlagsOutputStatus s t

/-- The instruction completes with `pc` past its `n` operand bytes and nothing else changes. -/
def OnlyAdvances (i : Instr) (n : Nat) (s : State) : Prop :=
  ∃ t, exec i s = .next t ∧ AdvancedPast n s t ∧ KeepsRegsBut [] s t ∧ KeepsMemory s t ∧ KeepsFlagsOutputStatus s t

/-- A fault is taken in the step that began in `s`: FAULTED, the record written, nothing else (60_exceptions R201, R202). -/
def TakesFault (s : State) (r : Result) (kind : BitVec 3) (space : BitVec 1) (detail : BitVec 9) : Prop :=
  r = .next { s with runState := .faulted, faultRecord := ⟨kind, space, s.pc, detail⟩ }

/-! ### Opcodes (30_encoding R64) -/

/-- The 14 ALU opcodes. -/
def aluOpcodes : List Byte :=
  [0x65#8, 0x66#8, 0x69#8, 0xA0#8, 0xA1#8, 0xA2#8, 0xA3#8, 0xA4#8, 0xA7#8, 0xA8#8, 0xAA#8, 0xAB#8, 0xAC#8, 0xAD#8]

/-- The 11 control-flow opcodes. -/
def controlOpcodes : List Byte :=
  [0x11#8, 0x13#8, 0x50#8, 0x52#8, 0x54#8, 0x55#8, 0x56#8, 0x57#8, 0x58#8, 0x59#8, 0x5A#8]

/-- The 9 other opcodes: NOP, HLT, PUSH, POP, PRN, PRA, LDI, LD, ST. -/
def transferOpcodes : List Byte := [0x00#8, 0x01#8, 0x45#8, 0x46#8, 0x47#8, 0x48#8, 0x82#8, 0x83#8, 0x84#8]

/-- All 34 opcodes. -/
def definedOpcodes : List Byte := aluOpcodes ++ controlOpcodes ++ transferOpcodes

/-! ### Legal states -/

/-- No two flags are set at once (10_state R34, R36). -/
def Flags.legal (f : Flags) : Prop := ¬(f.e = true ∧ f.g = true) ∧ ¬(f.e = true ∧ f.l = true) ∧ ¬(f.g = true ∧ f.l = true)

/-- Byte `k` of the instruction at `pc` (30_encoding R61). -/
def codeByte (k : Nat) (s : State) : Byte := readByte (s.pc.toNat + k) s

/-- The operand bytes among `a`, `b` that the format of the opcode names as registers: none of PRA and INT, the first of
LDI, all of the others (30_encoding R67, 40_engine_cycle R85). -/
def registerBytes (op a b : Byte) : List Byte :=
  if op = 0x48#8 ∨ op = 0x52#8 then []
  else if op = 0x82#8 then [a]
  else [a, b].take (opOperandCount op)

/-- A step from here raises OutOfBounds (MEMORY): the opcode fetch, an operand fetch, or the return address of a CALL at
254 is beyond memory (60_exceptions R203, causes 1, 2, 4). -/
def memoryFaultHere (s : State) : Prop :=
  255 < s.pc.toNat ∨
  (codeByte 0 s ∈ definedOpcodes ∧ codeByte 0 s ∉ [0x13#8, 0x52#8] ∧
    255 < s.pc.toNat + opOperandCount (codeByte 0 s)) ∨
  (s.pc.toNat = 254 ∧ codeByte 0 s = 0x50#8 ∧ (codeByte 1 s).toNat ≤ 7)

/-- A step from here raises OutOfBounds (REGISTER) about the byte `r`: the instruction lies in memory and `r` is its first
register operand above 7 (60_exceptions R203, cause 3). -/
def registerFaultHere (s : State) (r : Byte) : Prop :=
  codeByte 0 s ∈ definedOpcodes ∧ s.pc.toNat + opOperandCount (codeByte 0 s) ≤ 255 ∧
  (registerBytes (codeByte 0 s) (codeByte 1 s) (codeByte 2 s)).find? (fun b => decide (7 < b.toNat)) = some r

/-- A step from here raises DivideByZero about register `j`: a DIV or MOD with valid operands whose divisor is `j` and holds
0 (60_exceptions R204). -/
def divideFaultHere (s : State) (j : Fin 8) : Prop :=
  s.pc.toNat + 2 ≤ 255 ∧ codeByte 0 s ∈ [0xA3#8, 0xA4#8] ∧ (codeByte 1 s).toNat ≤ 7 ∧ codeByte 2 s = regByte j ∧
  readReg j s = 0#8

/-- A step from here raises UnsupportedOperation: the opcode is undefined, with bit 5 set (60_exceptions R205). -/
def unsupportedFaultHere (s : State) : Prop :=
  s.pc.toNat ≤ 255 ∧ opIsAlu (codeByte 0 s) = true ∧ codeByte 0 s ∉ aluOpcodes

/-- A step from here raises IllegalInstruction: the opcode is undefined, with bit 5 clear, or INT or IRET
(60_exceptions R206). -/
def illegalFaultHere (s : State) : Prop :=
  s.pc.toNat ≤ 255 ∧ opIsAlu (codeByte 0 s) = false ∧
  (codeByte 0 s ∉ controlOpcodes ++ transferOpcodes ∨ codeByte 0 s ∈ [0x13#8, 0x52#8])

/-- The fault record names this `pc` and a cause of R203 to R206 that holds of this very state, which is the one the
faulting step began in (60_exceptions R201, R202), with its detail. -/
def recordLegal (s : State) : Prop :=
  s.faultRecord.faultPc = s.pc ∧
  ((s.faultRecord.kind = 1#3 ∧ s.faultRecord.oobSpace = 0#1 ∧ s.faultRecord.detail = 256#9 ∧ memoryFaultHere s) ∨
   (s.faultRecord.kind = 1#3 ∧ s.faultRecord.oobSpace = 1#1 ∧
      ∃ r : Byte, s.faultRecord.detail = r.setWidth 9 ∧ registerFaultHere s r) ∨
   (s.faultRecord.kind = 2#3 ∧ s.faultRecord.oobSpace = 0#1 ∧
      ∃ j : Fin 8, s.faultRecord.detail = BitVec.ofNat 9 j.val ∧ divideFaultHere s j) ∨
   (s.faultRecord.kind = 3#3 ∧ s.faultRecord.oobSpace = 0#1 ∧
      s.faultRecord.detail = (codeByte 0 s).setWidth 9 ∧ unsupportedFaultHere s) ∨
   (s.faultRecord.kind = 4#3 ∧ s.faultRecord.oobSpace = 0#1 ∧
      s.faultRecord.detail = (codeByte 0 s).setWidth 9 ∧ illegalFaultHere s))

/-- What holds of every state of a run: memory in its canonical form, `pc` in 0..256, legal flags, in HALTED the byte at
`pc` is HLT, in FAULTED the fault record is legal. -/
structure Inv (s : State) : Prop where
  memory_canonical : Memory.wf s.memory = true
  pc_range : s.pc.toNat ≤ 256
  flags_legal : s.flags.legal
  halted_at_hlt : s.runState = .halted → readByte s.pc.toNat s = 0x01#8
  record_legal : s.runState = .faulted → recordLegal s

/-- A safe state: no fault has been taken. -/
def Safe (s : State) : Prop := s.runState ≠ .faulted

end Sys2Proof.Machine
end

