-- ==== Sys2Proof/Certificates/Slice0/Obligations.lean ====
section
/-! DEFINITION. The statements for the provers. Register numbers range over all eight registers: no register is
hard-wired (10_state R25), and a register operand above 7 is the subject of `BadRegisterOperandFaults`. -/

open Sys2Proof Sys2Proof.Machine

/-! ### Reset, loading, invariants -/

/-- 70_reset_and_hazards R231 (and R27, R32, R36): releasing reset, from any state of the machine. The fault record, which
R231 leaves unspecified, is not spoken of; memory is kept (R233). -/
def Obligations.ResetRestoresArchitecturalState : Prop :=
  ∀ s : State, ∀ t : State, (t = s.assertReset.release ∨ t = State.reset) →
    (∀ i : Fin 8, readReg i t = if i = 7 then 0xF4#8 else 0x00#8) ∧ t.pc = 0#9 ∧
    (t.flags.e = false ∧ t.flags.g = false ∧ t.flags.l = false) ∧ t.runState = .running ∧ t.output = [] ∧
    KeepsMemory s s.assertReset.release

/-- 70_reset_and_hazards R233: the block does not reset memory; a loaded program lies at addresses from 0 in file order and
every other address holds 0; more than 256 bytes cannot be loaded. That the loaded memory is canonical is a clause about the
model's own form of memory (log 7), no part of R233. -/
def Obligations.LoadPlacesProgramFromZero : Prop :=
  (∀ s : State, KeepsMemory s s.assertReset.release) ∧
  ∀ (h : HeldInReset) (p : List Byte),
    (p.length ≤ 256 → ∃ h', h.load p = some h' ∧ Memory.wf h'.memory = true ∧
      ∀ a, readByte a h'.release = if a < p.length then p.getD a 0 else 0#8) ∧
    (256 < p.length → h.load p = none)

/-- 70_reset_and_hazards R232: the first instruction of a run is the one at address 0. -/
def Obligations.FirstInstructionIsAtAddressZero : Prop :=
  ∀ (h h' : HeldInReset) (i : Instr) (rest : List Byte),
    h.load (encode i ++ rest) = some h' → step h'.release = exec i h'.release

/-- The invariant, the model's own (Safety.lean), holds at reset, with any canonical memory. -/
def Obligations.InvHoldsAtReset : Prop :=
  Inv State.reset ∧ ∀ s : State, Memory.wf s.memory = true → Inv s.assertReset.release

/-- Every step keeps the invariant: memory stays canonical, `pc` stays in 0..256, the flags stay legal, HALTED stands at an
HLT, and a fault record names a cause of 60_exceptions R203 to R206 that holds of the state it stands in. The canonical form is
the model's own (log 7). -/
def Obligations.StepKeepsInv : Prop :=
  ∀ s t : State, Inv s → step s = .next t → Inv t

/-- Two canonical memories that read the same everywhere are equal; the form is the model's own (log 7). -/
def Obligations.CanonicalMemoriesAreEqualIfTheyReadEqual : Prop :=
  ∀ m m' : Memory, Memory.wf m = true → Memory.wf m' = true → (∀ a, Memory.get m a = Memory.get m' a) → m = m'

/-! ### Encoding -/

/-- Decode and encode agree, both ways: the bytes of any instruction, whatever follows them, decode to it, for every value of
every operand byte; and bytes that decode to an instruction begin with its encoding, but for INT's operand byte, which is
never read (43_control_flow R179) and so is free or absent; the encoder writes 0 there (the model's choice, log 5). -/
def Obligations.DecodeAndEncodeAgree : Prop :=
  (∀ (i : Instr) (rest : List Byte), decode (encode i ++ rest) = .ok i) ∧
  (∀ (bytes : List Byte) (i : Instr), i ≠ .int → decode bytes = .ok i → ∃ rest, bytes = encode i ++ rest) ∧
  (∀ bytes : List Byte, decode bytes = .ok .int ↔ ∃ rest, bytes = 0x52#8 :: rest)

/-- 30_encoding R65: bits 7..6 of every opcode are its operand count, bit 5 is set exactly for the 14 ALU opcodes, bit 4
exactly for the 11 control-flow opcodes. INT has one operand byte (R67). -/
def Obligations.OpcodeFieldsAgreeWithTheTable : Prop :=
  (∀ i : Instr, i.opcode ∈ definedOpcodes ∧ (encode i).length = 1 + opOperandCount i.opcode ∧
    (opIsAlu i.opcode = true ↔ i.opcode ∈ aluOpcodes) ∧ (opSetsPc i.opcode = true ↔ i.opcode ∈ controlOpcodes)) ∧
  (∀ op ∈ definedOpcodes, ∃ i : Instr, i.opcode = op) ∧
  aluOpcodes.length = 14 ∧ controlOpcodes.length = 11 ∧ definedOpcodes.Nodup

/-- Words written out from 30_encoding R64 and 95_test_vectors decode to the instructions they stand for. -/
def Obligations.WrittenOutWordsDecode : Prop :=
  decode [0x82#8, 0x00#8, 0x08#8] = .ok (.ldi 0 8) ∧ decode [0x47#8, 0x00#8] = .ok (.prn 0) ∧
  decode [0x01#8] = .ok .hlt ∧ decode [0xA2#8, 0x00#8, 0x01#8] = .ok (.mul 0 1) ∧
  decode [0x45#8, 0x00#8] = .ok (.push 0) ∧ decode [0x50#8, 0x01#8] = .ok (.call 1) ∧
  decode [0x11#8] = .ok .ret ∧ decode [0x55#8, 0x02#8] = .ok (.jeq 2) ∧ decode [0x84#8, 0x00#8, 0x01#8] = .ok (.st 0 1)

/-! ### The engine -/

/-- When the bytes at `pc` decode to an instruction, the step of a RUNNING machine is that instruction's meaning at that
state, with nothing added around it (40_engine_cycle R90). -/
def Obligations.StepRunsTheDecodedInstruction : Prop :=
  ∀ (s : State) (bytes : List Byte) (i : Instr), s.runState = .running → BytesAt s bytes → decode bytes = .ok i →
    step s = exec i s

/-- Every RUNNING state has a next state: no instruction, operand or encoding stops or refuses a step. The faults of the
spec are next states (the model's reading, log 3). -/
def Obligations.EveryRunningStateSteps : Prop :=
  ∀ s : State, s.runState = .running → ∃ t, step s = .next t

/-- In HALTED and FAULTED no step is taken, and reset leaves them (10_state R38, 60_exceptions R216). That `step` answers
no next state there is the model's form of it (log 4). -/
def Obligations.StoppedMachineTakesNoStepUntilReset : Prop :=
  ∀ s : State, s.runState ≠ .running → (∀ t, step s ≠ .next t) ∧ s.assertReset.release.runState = .running

/-- 40_engine_cycle R82, R86: a step ends in HALTED exactly where the byte at `pc` is the halt opcode. -/
def Obligations.OnlyTheHaltOpcodeHalts : Prop :=
  ∀ s t : State, step s = .next t →
    (t.runState = .halted ↔ s.pc.toNat ≤ 255 ∧ readByte s.pc.toNat s = 0x01#8)

/-- 40_engine_cycle R88: an instruction with `sets_pc = 0` that completes without a fault (and is not HLT) leaves `pc` just
past its bytes. -/
def Obligations.GenericAdvancePastTheInstruction : Prop :=
  ∀ (i : Instr) (s t : State), s.runState = .running → exec i s = .next t → t.runState = .running →
    opSetsPc i.opcode = false → s.pc.toNat + opOperandCount i.opcode ≤ 255 →
    t.pc.toNat = s.pc.toNat + 1 + opOperandCount i.opcode

/-- 60_exceptions R205, R206 and 30_encoding R71: an undefined opcode faults by its bit 5, INT and IRET are
IllegalInstruction, whatever bytes follow or are missing. -/
def Obligations.UndefinedOpcodesFaultByBitFive : Prop :=
  (∀ s : State, s.runState = .running → s.pc.toNat ≤ 255 →
    (opIsAlu (readByte s.pc.toNat s) = true → readByte s.pc.toNat s ∉ aluOpcodes →
      TakesFault s (step s) 3 0 ((readByte s.pc.toNat s).setWidth 9)) ∧
    (opIsAlu (readByte s.pc.toNat s) = false →
      (readByte s.pc.toNat s ∉ controlOpcodes ++ transferOpcodes ∨ readByte s.pc.toNat s = 0x52#8 ∨
        readByte s.pc.toNat s = 0x13#8) →
      TakesFault s (step s) 4 0 ((readByte s.pc.toNat s).setWidth 9))) ∧
  ((List.range 256).map (BitVec.ofNat 8)).countP (fun op => opIsAlu op && !aluOpcodes.contains op) = 114 ∧
  ((List.range 256).map (BitVec.ofNat 8)).countP
    (fun op => !opIsAlu op && !(controlOpcodes ++ transferOpcodes).contains op) = 108

/-- 40_engine_cycle R81, R83: a fetch at `pc` beyond memory, and an operand byte of a defined opcode beyond memory, are
OutOfBounds (MEMORY). -/
def Obligations.FetchBeyondMemoryFaults : Prop :=
  (∀ s : State, s.runState = .running → 255 < s.pc.toNat → TakesFault s (step s) 1 0 s.pc) ∧
  (∀ s : State, s.runState = .running → s.pc.toNat ≤ 255 → readByte s.pc.toNat s ∈ definedOpcodes →
    readByte s.pc.toNat s ≠ 0x52#8 → readByte s.pc.toNat s ≠ 0x13#8 →
    255 < s.pc.toNat + opOperandCount (readByte s.pc.toNat s) → TakesFault s (step s) 1 0 256)

/-- 40_engine_cycle R85: the first register operand above 7 is reported, for every instruction that names a register, used
or not (a jump not taken, a zero divisor); the LDI immediate and the PRA operand are not checked. -/
def Obligations.BadRegisterOperandFaults : Prop :=
  (∀ (i : Instr) (s : State) (r : Byte), i.regOperands.find? (fun b => decide (7 < b.toNat)) = some r →
    TakesFault s (exec i s) 1 1 (r.setWidth 9)) ∧
  (∀ i : Instr, i ≠ .int → (∀ a, i ≠ .pra a) → (∀ r v, i ≠ .ldi r v) → i.regOperands = (encode i).tail) ∧
  (∀ r v : Byte, (Instr.ldi r v).regOperands = [r]) ∧
  (∀ (a : Byte) (s : State), OnlyAdvances (.pra a) 1 s)

/-- 60_exceptions R202: a fault changes the run state and the fault record and nothing else, the record names the `pc` the
step began at, and no further step is taken. -/
def Obligations.FaultsArePrecise : Prop :=
  ∀ s t : State, step s = .next t → t.runState = .faulted →
    t.faultRecord.faultPc = s.pc ∧ t.pc = s.pc ∧ t.flags = s.flags ∧ t.output = s.output ∧
    KeepsRegsBut [] s t ∧ KeepsMemory s t ∧ ∀ u, step t ≠ .next u

/-- 10_state R39: no rule reads the fault record of a RUNNING machine: with another record there, the step does the same,
and ends with the other record unless it took a fault. -/
def Obligations.FaultRecordIsNotRead : Prop :=
  ∀ (s t : State) (r : FaultRecord), step s = .next t →
    step { s with faultRecord := r } = .next (if t.runState = .faulted then t else { t with faultRecord := r })

/-! ### Who writes what -/

/-- 10_state R34, 41_alu R117: no instruction but CMP writes FL, and after a CMP exactly one flag is set. -/
def Obligations.OnlyCmpWritesFlags : Prop :=
  (∀ (i : Instr) (s t : State), exec i s = .next t → (∀ a b, i ≠ .cmp a b) → t.flags = s.flags) ∧
  (∀ (a b : Fin 8) (s t : State), exec (.cmp (regByte a) (regByte b)) s = .next t →
    t.flags.e.toNat + t.flags.g.toNat + t.flags.l.toNat = 1)

/-- 20_memory R41: ST, PUSH and CALL are the only instructions that write memory. -/
def Obligations.OnlyStPushCallWriteMemory : Prop :=
  ∀ (i : Instr) (s t : State), exec i s = .next t → (∀ a b, i ≠ .st a b) → (∀ r, i ≠ .push r) → (∀ r, i ≠ .call r) →
    KeepsMemory s t

/-- 00_scope R9: output events are produced only by PRN. -/
def Obligations.OnlyPrnProducesOutput : Prop :=
  ∀ (i : Instr) (s t : State), exec i s = .next t → (∀ r, i ≠ .prn r) → t.output = s.output

/-- 10_state R23, R24: SP changes only by PUSH, POP, CALL and RET, or by an instruction that names R7. -/
def Obligations.SpChangesOnlyByStackOrByName : Prop :=
  ∀ (i : Instr) (s t : State), exec i s = .next t → regByte 7 ∉ i.regOperands →
    (∀ r, i ≠ .push r) → (∀ r, i ≠ .pop r) → (∀ r, i ≠ .call r) → i ≠ .ret → readReg 7 t = readReg 7 s

/-! ### ALU instructions -/

/-- 41_alu R101, R102, R103. -/
def Obligations.AddSubMulWrapModulo256 : Prop :=
  ∀ (a b : Fin 8) (s : State),
    encode (.add (regByte a) (regByte b)) = [0xA0#8, regByte a, regByte b] ∧
    WritesOneReg (.add (regByte a) (regByte b)) 2 a (((readReg a s).toNat + (readReg b s).toNat) % 256) s ∧
    encode (.sub (regByte a) (regByte b)) = [0xA1#8, regByte a, regByte b] ∧
    WritesOneReg (.sub (regByte a) (regByte b)) 2 a ((256 + (readReg a s).toNat - (readReg b s).toNat) % 256) s ∧
    encode (.mul (regByte a) (regByte b)) = [0xA2#8, regByte a, regByte b] ∧
    WritesOneReg (.mul (regByte a) (regByte b)) 2 a (((readReg a s).toNat * (readReg b s).toNat) % 256) s

/-- 41_alu R104, R105: the unsigned quotient and remainder, and DivideByZero before any write where the divisor is 0. -/
def Obligations.DivModDivideOrFault : Prop :=
  ∀ (a b : Fin 8) (s : State),
    encode (.div (regByte a) (regByte b)) = [0xA3#8, regByte a, regByte b] ∧
    (readReg b s ≠ 0#8 →
      WritesOneReg (.div (regByte a) (regByte b)) 2 a ((readReg a s).toNat / (readReg b s).toNat) s) ∧
    (readReg b s = 0#8 → TakesFault s (exec (.div (regByte a) (regByte b)) s) 2 0 (BitVec.ofNat 9 b.val)) ∧
    encode (.mod (regByte a) (regByte b)) = [0xA4#8, regByte a, regByte b] ∧
    (readReg b s ≠ 0#8 →
      WritesOneReg (.mod (regByte a) (regByte b)) 2 a ((readReg a s).toNat % (readReg b s).toNat) s) ∧
    (readReg b s = 0#8 → TakesFault s (exec (.mod (regByte a) (regByte b)) s) 2 0 (BitVec.ofNat 9 b.val))

/-- 60_exceptions R204: a zero divisor, the detail its register index; no other ALU instruction faults on valid operands. -/
def Obligations.DivideByZeroIsTheOnlyAluFault : Prop :=
  (∀ (a b : Fin 8) (s : State), readReg b s = 0#8 →
    TakesFault s (exec (.div (regByte a) (regByte b)) s) 2 0 (BitVec.ofNat 9 b.val) ∧
    TakesFault s (exec (.mod (regByte a) (regByte b)) s) 2 0 (BitVec.ofNat 9 b.val)) ∧
  (∀ (i : Instr) (s t : State), i.opcode ∈ aluOpcodes → WellFormed i → s.runState = .running → exec i s = .next t →
    t.runState = .faulted → ∃ a b : Fin 8, readReg b s = 0#8 ∧
      (i = .div (regByte a) (regByte b) ∨ i = .mod (regByte a) (regByte b)))

/-- 41_alu R106, R107, R115. -/
def Obligations.IncDecNotOneRegister : Prop :=
  ∀ (r : Fin 8) (s : State),
    encode (.inc (regByte r)) = [0x65#8, regByte r] ∧
    WritesOneReg (.inc (regByte r)) 1 r (((readReg r s).toNat + 1) % 256) s ∧
    encode (.dec (regByte r)) = [0x66#8, regByte r] ∧
    WritesOneReg (.dec (regByte r)) 1 r (((readReg r s).toNat + 255) % 256) s ∧
    encode (.not (regByte r)) = [0x69#8, regByte r] ∧
    WritesOneReg (.not (regByte r)) 1 r (255 - (readReg r s).toNat) s

/-- 41_alu R108, R109, R110. -/
def Obligations.AndOrXorBitwise : Prop :=
  ∀ (a b : Fin 8) (s : State),
    encode (.and (regByte a) (regByte b)) = [0xA8#8, regByte a, regByte b] ∧
    WritesOneReg (.and (regByte a) (regByte b)) 2 a ((readReg a s).toNat &&& (readReg b s).toNat) s ∧
    encode (.or (regByte a) (regByte b)) = [0xAA#8, regByte a, regByte b] ∧
    WritesOneReg (.or (regByte a) (regByte b)) 2 a ((readReg a s).toNat ||| (readReg b s).toNat) s ∧
    encode (.xor (regByte a) (regByte b)) = [0xAB#8, regByte a, regByte b] ∧
    WritesOneReg (.xor (regByte a) (regByte b)) 2 a ((readReg a s).toNat ^^^ (readReg b s).toNat) s

/-- 41_alu R111, R112: the amount is the whole value of the second register; 8 or more gives 0. -/
def Obligations.ShiftsByTheWholeRegister : Prop :=
  ∀ (a b : Fin 8) (s : State),
    encode (.shl (regByte a) (regByte b)) = [0xAC#8, regByte a, regByte b] ∧
    WritesOneReg (.shl (regByte a) (regByte b)) 2 a (((readReg a s).toNat * 2 ^ (readReg b s).toNat) % 256) s ∧
    encode (.shr (regByte a) (regByte b)) = [0xAD#8, regByte a, regByte b] ∧
    WritesOneReg (.shr (regByte a) (regByte b)) 2 a ((readReg a s).toNat / 2 ^ (readReg b s).toNat) s ∧
    (8 ≤ (readReg b s).toNat →
      WritesOneReg (.shl (regByte a) (regByte b)) 2 a 0 s ∧ WritesOneReg (.shr (regByte a) (regByte b)) 2 a 0 s)

/-- 41_alu R113: an unsigned comparison of two registers, neither written. -/
def Obligations.CmpComparesUnsigned : Prop :=
  ∀ (a b : Fin 8) (s : State),
    encode (.cmp (regByte a) (regByte b)) = [0xA7#8, regByte a, regByte b] ∧
    ∃ t, exec (.cmp (regByte a) (regByte b)) s = .next t ∧
      (t.flags.e = true ↔ (readReg a s).toNat = (readReg b s).toNat) ∧
      (t.flags.g = true ↔ (readReg b s).toNat < (readReg a s).toNat) ∧
      (t.flags.l = true ↔ (readReg a s).toNat < (readReg b s).toNat) ∧
      AdvancedPast 2 s t ∧ KeepsRegsBut [] s t ∧ KeepsMemory s t ∧
      t.output = s.output ∧ t.runState = s.runState ∧ t.faultRecord = s.faultRecord

/-! ### Data transfer, stack, output -/

/-- 42_data_transfer R141, R152: NOP and PRA only move past their bytes, PRA with any operand byte. -/
def Obligations.NopAndPraOnlyAdvance : Prop :=
  ∀ (operand : Byte) (s : State),
    encode .nop = [0x00#8] ∧ OnlyAdvances .nop 0 s ∧
    encode (.pra operand) = [0x48#8, operand] ∧ OnlyAdvances (.pra operand) 1 s

/-- 42_data_transfer R142: any byte into any register, R7 included. -/
def Obligations.LdiLoadsTheImmediate : Prop :=
  ∀ (r : Fin 8) (imm : Byte) (s : State),
    encode (.ldi (regByte r) imm) = [0x82#8, regByte r, imm] ∧
    WritesOneReg (.ldi (regByte r) imm) 2 r imm.toNat s

/-- 42_data_transfer R146. -/
def Obligations.LdLoadsFromTheRegisterAddress : Prop :=
  ∀ (a b : Fin 8) (s : State),
    encode (.ld (regByte a) (regByte b)) = [0x83#8, regByte a, regByte b] ∧
    WritesOneReg (.ld (regByte a) (regByte b)) 2 a (readByte (readReg b s).toNat s).toNat s

/-- 42_data_transfer R147. -/
def Obligations.StStoresAtTheRegisterAddress : Prop :=
  ∀ (a b : Fin 8) (s : State),
    encode (.st (regByte a) (regByte b)) = [0x84#8, regByte a, regByte b] ∧
    ∃ t, exec (.st (regByte a) (regByte b)) s = .next t ∧
      readByte (readReg a s).toNat t = readReg b s ∧ KeepsMemoryBut (readReg a s).toNat s t ∧
      AdvancedPast 2 s t ∧ KeepsRegsBut [] s t ∧ KeepsFlagsOutputStatus s t

/-- 42_data_transfer R148: the push address is SP - 1 modulo 256; PUSH R7 stores the decremented SP. -/
def Obligations.PushDecrementsThenStores : Prop :=
  ∀ (r : Fin 8) (s : State),
    encode (.push (regByte r)) = [0x45#8, regByte r] ∧
    ∃ t, exec (.push (regByte r)) s = .next t ∧
      (readReg 7 t).toNat = ((readReg 7 s).toNat + 255) % 256 ∧
      (readByte (((readReg 7 s).toNat + 255) % 256) t).toNat =
        (if r = 7 then ((readReg 7 s).toNat + 255) % 256 else (readReg r s).toNat) ∧
      KeepsMemoryBut (((readReg 7 s).toNat + 255) % 256) s t ∧
      AdvancedPast 1 s t ∧ KeepsRegsBut [7] s t ∧ KeepsFlagsOutputStatus s t

/-- 42_data_transfer R149: SP + 1 modulo 256 after the read; POP R7 leaves the popped byte plus one; memory is not
written. -/
def Obligations.PopLoadsThenIncrements : Prop :=
  ∀ (r : Fin 8) (s : State),
    encode (.pop (regByte r)) = [0x46#8, regByte r] ∧
    ∃ t, exec (.pop (regByte r)) s = .next t ∧
      (r ≠ 7 → readReg r t = readByte (readReg 7 s).toNat s ∧ (readReg 7 t).toNat = ((readReg 7 s).toNat + 1) % 256) ∧
      (r = 7 → (readReg 7 t).toNat = ((readByte (readReg 7 s).toNat s).toNat + 1) % 256) ∧
      AdvancedPast 1 s t ∧ KeepsRegsBut [r, 7] s t ∧ KeepsMemory s t ∧ KeepsFlagsOutputStatus s t

/-- 42_data_transfer R151: one output event, the register's byte, after all earlier ones. -/
def Obligations.PrnEmitsTheRegister : Prop :=
  ∀ (r : Fin 8) (s : State),
    encode (.prn (regByte r)) = [0x47#8, regByte r] ∧
    ∃ t, exec (.prn (regByte r)) s = .next t ∧ t.output = s.output ++ [readReg r s] ∧
      AdvancedPast 1 s t ∧ KeepsRegsBut [] s t ∧ KeepsMemory s t ∧
      t.flags = s.flags ∧ t.runState = s.runState ∧ t.faultRecord = s.faultRecord

/-- 42_data_transfer R150: PUSH r then POP r', SP and the pushed byte untouched in between. -/
def Obligations.PushThenPopRestores : Prop :=
  ∀ (r r' : Fin 8) (s t t' : State), r ≠ 7 → r' ≠ 7 → exec (.push (regByte r)) s = .next t →
    readReg 7 t' = readReg 7 t → readByte (readReg 7 t).toNat t' = readByte (readReg 7 t).toNat t →
    ∃ u, exec (.pop (regByte r')) t' = .next u ∧ readReg r' u = readReg r s ∧ readReg 7 u = readReg 7 s ∧
      readByte (((readReg 7 s).toNat + 255) % 256) u = readReg r s

/-- 42_data_transfer R142, R151 with the engine: `LDI r, v` then `PRN r` at `pc` emit exactly `v` in two steps. -/
def Obligations.LdiThenPrnPrintsTheValue : Prop :=
  ∀ (r : Fin 8) (v : Byte) (s : State), s.runState = .running →
    BytesAt s [0x82#8, regByte r, v, 0x47#8, regByte r] →
    ∃ t u, step s = .next t ∧ step t = .next u ∧ u.output = s.output ++ [v] ∧ u.runState = .running ∧
      u.pc.toNat = s.pc.toNat + 5

/-- 20_memory R51: a byte stored by ST over the next instruction is what the next step runs. -/
def Obligations.StoreIsSeenByTheNextFetch : Prop :=
  ∀ (a b : Fin 8) (s t : State) (i : Instr), s.runState = .running → exec (.st (regByte a) (regByte b)) s = .next t →
    t.pc.toNat = (readReg a s).toNat → decode [readReg b s] = .ok i → step t = exec i t

/-! ### Control flow -/

/-- 40_engine_cycle R86: HLT stops in HALTED at its own address (PC_AFTER_HLT at its default, 92 D21), nothing else changes,
and no further step is taken. -/
def Obligations.HltStopsAtItsOwnAddress : Prop :=
  ∀ s : State, encode .hlt = [0x01#8] ∧
    ∃ t, exec .hlt s = .next t ∧ t.runState = .halted ∧ t.pc = s.pc ∧ KeepsRegsBut [] s t ∧ KeepsMemory s t ∧
      t.flags = s.flags ∧ t.output = s.output ∧ t.faultRecord = s.faultRecord ∧ ∀ u, step t ≠ .next u

/-- 43_control_flow R170: the return address `pc + 2` is pushed and `pc` becomes the register's value, after the decrement
where the register is R7; at address 254 it is OutOfBounds before any write. -/
def Obligations.CallPushesReturnAddressAndJumps : Prop :=
  ∀ (r : Fin 8) (s : State),
    encode (.call (regByte r)) = [0x50#8, regByte r] ∧
    (s.pc.toNat ≤ 253 → ∃ t, exec (.call (regByte r)) s = .next t ∧
      (readReg 7 t).toNat = ((readReg 7 s).toNat + 255) % 256 ∧
      (readByte (((readReg 7 s).toNat + 255) % 256) t).toNat = s.pc.toNat + 2 ∧
      t.pc.toNat = (if r = 7 then ((readReg 7 s).toNat + 255) % 256 else (readReg r s).toNat) ∧
      KeepsMemoryBut (((readReg 7 s).toNat + 255) % 256) s t ∧ KeepsRegsBut [7] s t ∧ KeepsFlagsOutputStatus s t) ∧
    (s.pc.toNat = 254 → TakesFault s (exec (.call (regByte r)) s) 1 0 256)

/-- 43_control_flow R171: `pc` from the top of the stack, SP + 1 modulo 256, memory not written. -/
def Obligations.RetPopsThePc : Prop :=
  ∀ s : State, encode .ret = [0x11#8] ∧
    ∃ t, exec .ret s = .next t ∧ t.pc.toNat = (readByte (readReg 7 s).toNat s).toNat ∧
      (readReg 7 t).toNat = ((readReg 7 s).toNat + 1) % 256 ∧
      KeepsRegsBut [7] s t ∧ KeepsMemory s t ∧ KeepsFlagsOutputStatus s t

/-- 43_control_flow R183: a CALL and its RET, SP and the pushed byte untouched in between. -/
def Obligations.RetReturnsPastTheCall : Prop :=
  ∀ (r : Fin 8) (s t t' : State), s.pc.toNat ≤ 253 → exec (.call (regByte r)) s = .next t →
    readReg 7 t' = readReg 7 t → readByte (readReg 7 t).toNat t' = readByte (readReg 7 t).toNat t →
    ∃ u, exec .ret t' = .next u ∧ u.pc.toNat = s.pc.toNat + 2 ∧ readReg 7 u = readReg 7 s

/-- 43_control_flow R172. -/
def Obligations.JmpJumpsToTheRegister : Prop :=
  ∀ (r : Fin 8) (s : State),
    encode (.jmp (regByte r)) = [0x54#8, regByte r] ∧ JumpsTo (.jmp (regByte r)) (readReg r s).toNat s

/-- 43_control_flow R173, R174, R182: to the register's value if the condition holds, else past the operand byte. -/
def Obligations.JeqJneReadTheEqualFlag : Prop :=
  ∀ (r : Fin 8) (s : State),
    encode (.jeq (regByte r)) = [0x55#8, regByte r] ∧
    (s.flags.e = true → JumpsTo (.jeq (regByte r)) (readReg r s).toNat s) ∧
    (s.flags.e = false → OnlyAdvances (.jeq (regByte r)) 1 s) ∧
    encode (.jne (regByte r)) = [0x56#8, regByte r] ∧
    (s.flags.e = false → JumpsTo (.jne (regByte r)) (readReg r s).toNat s) ∧
    (s.flags.e = true → OnlyAdvances (.jne (regByte r)) 1 s)

/-- 43_control_flow R175 to R178, each from the flags it reads. -/
def Obligations.OrderedJumpsReadTheirFlags : Prop :=
  ∀ (r : Fin 8) (s : State),
    encode (.jgt (regByte r)) = [0x57#8, regByte r] ∧
    (s.flags.g = true → JumpsTo (.jgt (regByte r)) (readReg r s).toNat s) ∧
    (s.flags.g = false → OnlyAdvances (.jgt (regByte r)) 1 s) ∧
    encode (.jlt (regByte r)) = [0x58#8, regByte r] ∧
    (s.flags.l = true → JumpsTo (.jlt (regByte r)) (readReg r s).toNat s) ∧
    (s.flags.l = false → OnlyAdvances (.jlt (regByte r)) 1 s) ∧
    encode (.jle (regByte r)) = [0x59#8, regByte r] ∧
    (s.flags.l = true ∨ s.flags.e = true → JumpsTo (.jle (regByte r)) (readReg r s).toNat s) ∧
    (s.flags.l = false ∧ s.flags.e = false → OnlyAdvances (.jle (regByte r)) 1 s) ∧
    encode (.jge (regByte r)) = [0x5A#8, regByte r] ∧
    (s.flags.g = true ∨ s.flags.e = true → JumpsTo (.jge (regByte r)) (readReg r s).toNat s) ∧
    (s.flags.g = false ∧ s.flags.e = false → OnlyAdvances (.jge (regByte r)) 1 s)

/-- 43_control_flow R184: CMP, then with the flags as CMP left them JEQ jumps iff the compared values were equal, JNE the
reverse. -/
def Obligations.CompareAndBranch : Prop :=
  ∀ (a b r : Fin 8) (s t t' : State), exec (.cmp (regByte a) (regByte b)) s = .next t → t'.flags = t.flags →
    (readReg a s = readReg b s →
      JumpsTo (.jeq (regByte r)) (readReg r t').toNat t' ∧ OnlyAdvances (.jne (regByte r)) 1 t') ∧
    (readReg a s ≠ readReg b s →
      OnlyAdvances (.jeq (regByte r)) 1 t' ∧ JumpsTo (.jne (regByte r)) (readReg r t').toNat t')

/-- 43_control_flow R179, R180: INT and IRET are IllegalInstruction, whatever the state; through the engine too, INT with
any operand byte or none. -/
def Obligations.IntAndIretAreIllegal : Prop :=
  ∀ s : State,
    Instr.int.opcode = 0x52#8 ∧ TakesFault s (exec .int s) 4 0 0x52 ∧
    encode .iret = [0x13#8] ∧ TakesFault s (exec .iret s) 4 0 0x13 ∧
    (s.runState = .running → s.pc.toNat ≤ 255 → readByte s.pc.toNat s = 0x52#8 → TakesFault s (step s) 4 0 0x52) ∧
    (s.runState = .running → s.pc.toNat ≤ 255 → readByte s.pc.toNat s = 0x13#8 → TakesFault s (step s) 4 0 0x13)

/-! ### The host's view while reset is held -/

/-- 00_scope R10: the host reads the output stream and the status output while reset is held too. That they show what they
last showed, whatever the host writes or loads, is the model's choice (log 21). -/
def Obligations.HostReadsOutputAndStatusWhileResetIsHeld : Prop :=
  (∀ s : State, s.assertReset.output = s.output ∧ s.assertReset.statusOutput = statusOutput s) ∧
  ∀ h h' : HeldInReset, ((∃ a v, h.hostWrite a v = some h') ∨ ∃ p, h.load p = some h') →
    h'.output = h.output ∧ h'.statusOutput = h.statusOutput
end

