-- ==== Sys2Proof/Laws/Encoding.lean ====
section
/-! SUPPORT. The opcode map and the decoder: no two rows overlap, and more readable bytes never change an answer. -/

namespace Sys2Proof

/-- No two rows of the opcode map have the same opcode (30_encoding R64). -/
theorem opcodeMap_nodup : (opcodeMap.map OpcodeRow.opcode).Nodup := by decide

theorem opcodeMap_length : opcodeMap.length = 34 := by decide

/-- The bytes of a list, read as an instruction. -/
theorem decode_eq (bytes : List Byte) : decode bytes = decodeFrom opcodeMap (fun k => bytes[k]?) := rfl

/-- A reader that has every byte another has, with the same value, decodes what the other decodes. -/
theorem decodeFrom_mono {map : List OpcodeRow} {rd rd' : Nat → Option Byte} {i : Instr}
    (hrd : ∀ k b, rd k = some b → rd' k = some b) (h : decodeFrom map rd = .ok i) : decodeFrom map rd' = .ok i := by
  unfold decodeFrom at h ⊢
  cases h0 : rd 0 with
  | none => simp [h0] at h
  | some op =>
    rw [hrd 0 op h0]
    simp only [h0] at h ⊢
    by_cases hh : op = haltOpcode
    · simpa [hh] using h
    · simp only [hh, if_false] at h ⊢
      cases hf : formOf map op with
      | none => simp [hf] at h
      | some form =>
        cases form with
        | z j => simpa [hf] using h
        | faulting j => simpa [hf] using h
        | r make =>
          simp only [hf] at h ⊢
          cases h1 : rd 1 with
          | none => simp [h1] at h
          | some a => simpa [h1, hrd 1 a h1] using h
        | rr make =>
          simp only [hf] at h ⊢
          cases h1 : rd 1 with
          | none => simp [h1] at h
          | some a =>
            cases h2 : rd 2 with
            | none => simp [h1, h2] at h
            | some b => simpa [h1, h2, hrd 1 a h1, hrd 2 b h2] using h
        | ri make =>
          simp only [hf] at h ⊢
          cases h1 : rd 1 with
          | none => simp [h1] at h
          | some a =>
            cases h2 : rd 2 with
            | none => simp [h1, h2] at h
            | some b => simpa [h1, h2, hrd 1 a h1, hrd 2 b h2] using h

end Sys2Proof
end

