-- ==== Sys2Proof/Laws/Memory.lean ====
section
/-! SUPPORT. Memory: reading after writing, and the canonical form that every operation keeps. -/

namespace Sys2Proof.Machine

@[simp] theorem get_nil (a : Nat) : Memory.get [] a = unwrittenByte := rfl

theorem get_cons (k : Nat) (v : Byte) (m : Memory) (a : Nat) :
    Memory.get ((k, v) :: m) a = if k = a then v else Memory.get m a := rfl

/-- Dropping the cells of address `a` leaves every other address as it reads. -/
theorem get_filter (m : Memory) (a b : Nat) :
    Memory.get (m.filter (fun c => decide (c.1 ≠ a))) b = if b = a then unwrittenByte else Memory.get m b := by
  induction m with
  | nil => simp
  | cons c m ih =>
    obtain ⟨k, v⟩ := c
    by_cases hk : k = a
    · subst hk
      by_cases hb : b = k
      · simp_all
      · simp_all [get_cons, Ne.symm hb]
    · by_cases hb : b = a
      · subst hb
        simp_all [get_cons]
      · simp_all [get_cons]

/-- Inserting a cell where none has its address. -/
theorem get_insert (m : Memory) (a b : Nat) (v : Byte) (h : Memory.get m a = unwrittenByte) (hm : ∀ c ∈ m, c.1 ≠ a) :
    Memory.get (Memory.insert m a v) b = if b = a then v else Memory.get m b := by
  induction m with
  | nil =>
    simp only [Memory.insert]
    by_cases hv : v = unwrittenByte
    · simp [hv]
    · simp only [hv, if_false, get_cons, get_nil]
      by_cases hb : a = b
      · simp [hb]
      · simp [hb, Ne.symm hb]
  | cons c m ih =>
    obtain ⟨k, w⟩ := c
    have hk : k ≠ a := hm (k, w) (by simp)
    have hm' : ∀ c ∈ m, c.1 ≠ a := fun c hc => hm c (by simp [hc])
    rw [get_cons, if_neg hk] at h
    have ih := ih h hm'
    simp only [Memory.insert]
    by_cases hlt : a < k
    · simp only [hlt, if_true]
      by_cases hv : v = unwrittenByte
      · simp only [hv, if_true]
        by_cases hb : b = a
        · subst hb
          simp [get_cons, hk, h]
        · simp [hb]
      · simp only [hv, if_false]
        by_cases hb : b = a
        · subst hb
          simp [get_cons]
        · rw [get_cons, if_neg (Ne.symm hb), if_neg hb]
    · simp only [hlt, if_false, get_cons, ih]
      by_cases hb : b = a
      · subst hb
        simp [hk]
      · simp [hb]

/-- Reading after writing, in any memory. -/
theorem get_set (m : Memory) (a b : Nat) (v : Byte) :
    Memory.get (Memory.set m a v) b = if b = a then v else Memory.get m b := by
  unfold Memory.set
  have hout : Memory.get (m.filter (fun c => decide (c.1 ≠ a))) a = unwrittenByte := by rw [get_filter, if_pos rfl]
  rw [get_insert _ _ _ _ hout (by simp)]
  by_cases hb : b = a
  · simp [hb]
  · rw [if_neg hb, if_neg hb, get_filter, if_neg hb]

@[simp] theorem get_set_same (m : Memory) (a : Nat) (v : Byte) : Memory.get (Memory.set m a v) a = v := by
  simp [get_set]

theorem get_set_ne (m : Memory) {a b : Nat} (v : Byte) (h : b ≠ a) :
    Memory.get (Memory.set m a v) b = Memory.get m b := by
  simp [get_set, h]

/-! ### The canonical form -/

theorem wfFrom_cons (low k : Nat) (v : Byte) (m : Memory) :
    Memory.wfFrom low ((k, v) :: m) = true ↔
      low ≤ k ∧ k ≤ maxAddr ∧ v ≠ unwrittenByte ∧ Memory.wfFrom (k + 1) m = true := by
  simp [Memory.wfFrom, and_assoc]

/-- A lower starting bound asks less. -/
theorem wfFrom_mono {low low' : Nat} (h : low' ≤ low) (m : Memory) (hm : Memory.wfFrom low m = true) :
    Memory.wfFrom low' m = true := by
  cases m with
  | nil => rfl
  | cons c m =>
    obtain ⟨k, v⟩ := c
    rw [wfFrom_cons] at hm ⊢
    exact ⟨h.trans hm.1, hm.2⟩

theorem wfFrom_filter (p : Host.Cell → Bool) (m : Memory) (low : Nat) (hm : Memory.wfFrom low m = true) :
    Memory.wfFrom low (m.filter p) = true := by
  induction m generalizing low with
  | nil => rfl
  | cons c m ih =>
    obtain ⟨k, v⟩ := c
    rw [wfFrom_cons] at hm
    have ih := ih (k + 1) hm.2.2.2
    by_cases hp : p (k, v) = true
    · rw [List.filter_cons_of_pos hp, wfFrom_cons]
      exact ⟨hm.1, hm.2.1, hm.2.2.1, ih⟩
    · rw [List.filter_cons_of_neg hp]
      exact wfFrom_mono (by omega) _ ih

theorem wfFrom_insert (m : Memory) (low a : Nat) (v : Byte) (hm : Memory.wfFrom low m = true) (hlow : low ≤ a)
    (ha : a ≤ maxAddr) (hne : ∀ c ∈ m, c.1 ≠ a) : Memory.wfFrom low (Memory.insert m a v) = true := by
  induction m generalizing low with
  | nil =>
    simp only [Memory.insert]
    by_cases hv : v = unwrittenByte
    · simp [hv, Memory.wfFrom]
    · rw [if_neg hv, wfFrom_cons]
      exact ⟨hlow, ha, hv, rfl⟩
  | cons c m ih =>
    obtain ⟨k, w⟩ := c
    have hka : k ≠ a := hne (k, w) (by simp)
    have hm' := (wfFrom_cons low k w m).mp hm
    simp only [Memory.insert]
    by_cases hlt : a < k
    · rw [if_pos hlt]
      by_cases hv : v = unwrittenByte
      · rw [if_pos hv]
        exact hm
      · rw [if_neg hv, wfFrom_cons, wfFrom_cons]
        exact ⟨hlow, ha, hv, by omega, hm'.2⟩
    · rw [if_neg hlt, wfFrom_cons]
      exact ⟨hm'.1, hm'.2.1, hm'.2.2.1,
        ih (k + 1) hm'.2.2.2 (by omega) fun c hc => hne c (by simp [hc])⟩

/-- A write inside memory keeps the canonical form. -/
theorem set_wf (m : Memory) (a : Nat) (v : Byte) (ha : a ≤ maxAddr) (hm : Memory.wf m = true) :
    Memory.wf (Memory.set m a v) = true :=
  wfFrom_insert _ 0 a v (wfFrom_filter _ m 0 hm) (Nat.zero_le a) ha (by simp)

/-- Placing bytes keeps the canonical form. -/
theorem setBytes_wf (bytes : List Byte) (m : Memory) (a : Nat) (hm : Memory.wf m = true) :
    Memory.wf (Memory.setBytes m a bytes) = true := by
  induction bytes generalizing m a with
  | nil => exact hm
  | cons v vs ih =>
    simp only [Memory.setBytes]
    by_cases ha : a ≤ maxAddr
    · rw [if_pos ha]
      exact ih _ _ (set_wf m a v ha hm)
    · rw [if_neg ha]
      exact ih _ _ hm

/-- Placing bytes leaves every address below the first one as it reads. -/
theorem get_setBytes_below (bytes : List Byte) (m : Memory) (a b : Nat) (h : b < a) :
    Memory.get (Memory.setBytes m a bytes) b = Memory.get m b := by
  induction bytes generalizing m a with
  | nil => rfl
  | cons v vs ih =>
    simp only [Memory.setBytes]
    rw [ih _ _ (by omega)]
    by_cases ha : a ≤ maxAddr
    · rw [if_pos ha, get_set_ne _ _ (by omega)]
    · rw [if_neg ha]

theorem reset_memory_wf : Memory.wf State.reset.memory = true := rfl

/-- A successful memory write sets one byte; data addresses are always in range (20_memory R42). -/
theorem memWrite_byte (a v : Byte) (s : State) : memWrite a.toNat v s = .ok (s.setByte a.toNat v) := by
  unfold memWrite
  rw [if_pos (by have := a.isLt; simp only [maxAddr]; omega)]

/-- A data read never fails. -/
theorem memRead_byte (a : Byte) (s : State) : memRead a.toNat s = .ok (Memory.get s.memory a.toNat) := by
  unfold memRead
  rw [if_pos (by have := a.isLt; simp only [maxAddr]; omega)]

end Sys2Proof.Machine
end

