-- ==== Sys2Proof/Laws/State.lean ====
section
/-! SUPPORT. One lemma per field per update, and reading a register after writing one. -/

namespace Sys2Proof.Machine

variable (s : State) (i j : Fin 8) (v b : Byte) (n a : Nat) (x : Int) (f : Flags) (c : FaultCause)

@[simp] theorem setReg_pc : (s.setReg i v).pc = s.pc := rfl
@[simp] theorem setReg_flags : (s.setReg i v).flags = s.flags := rfl
@[simp] theorem setReg_runState : (s.setReg i v).runState = s.runState := rfl
@[simp] theorem setReg_faultRecord : (s.setReg i v).faultRecord = s.faultRecord := rfl
@[simp] theorem setReg_output : (s.setReg i v).output = s.output := rfl
@[simp] theorem setReg_memory : (s.setReg i v).memory = s.memory := rfl

@[simp] theorem writeReg_pc : (writeReg i x s).pc = s.pc := rfl
@[simp] theorem writeReg_flags : (writeReg i x s).flags = s.flags := rfl
@[simp] theorem writeReg_runState : (writeReg i x s).runState = s.runState := rfl
@[simp] theorem writeReg_faultRecord : (writeReg i x s).faultRecord = s.faultRecord := rfl
@[simp] theorem writeReg_output : (writeReg i x s).output = s.output := rfl
@[simp] theorem writeReg_memory : (writeReg i x s).memory = s.memory := rfl

@[simp] theorem setByte_regs : (s.setByte a v).regs = s.regs := rfl
@[simp] theorem setByte_pc : (s.setByte a v).pc = s.pc := rfl
@[simp] theorem setByte_flags : (s.setByte a v).flags = s.flags := rfl
@[simp] theorem setByte_runState : (s.setByte a v).runState = s.runState := rfl
@[simp] theorem setByte_faultRecord : (s.setByte a v).faultRecord = s.faultRecord := rfl
@[simp] theorem setByte_output : (s.setByte a v).output = s.output := rfl
@[simp] theorem setByte_memory : (s.setByte a v).memory = Memory.set s.memory a v := rfl

@[simp] theorem emit_regs : (emit v s).regs = s.regs := rfl
@[simp] theorem emit_pc : (emit v s).pc = s.pc := rfl
@[simp] theorem emit_flags : (emit v s).flags = s.flags := rfl
@[simp] theorem emit_runState : (emit v s).runState = s.runState := rfl
@[simp] theorem emit_faultRecord : (emit v s).faultRecord = s.faultRecord := rfl
@[simp] theorem emit_output : (emit v s).output = s.output ++ [v] := rfl
@[simp] theorem emit_memory : (emit v s).memory = s.memory := rfl

@[simp] theorem setFlags_regs : (s.setFlags f).regs = s.regs := rfl
@[simp] theorem setFlags_pc : (s.setFlags f).pc = s.pc := rfl
@[simp] theorem setFlags_flags : (s.setFlags f).flags = f := rfl
@[simp] theorem setFlags_runState : (s.setFlags f).runState = s.runState := rfl
@[simp] theorem setFlags_faultRecord : (s.setFlags f).faultRecord = s.faultRecord := rfl
@[simp] theorem setFlags_output : (s.setFlags f).output = s.output := rfl
@[simp] theorem setFlags_memory : (s.setFlags f).memory = s.memory := rfl

@[simp] theorem setPc_regs : (setPc n s).regs = s.regs := rfl
@[simp] theorem setPc_pc : (setPc n s).pc = BitVec.ofNat 9 n := rfl
@[simp] theorem setPc_flags : (setPc n s).flags = s.flags := rfl
@[simp] theorem setPc_runState : (setPc n s).runState = s.runState := rfl
@[simp] theorem setPc_faultRecord : (setPc n s).faultRecord = s.faultRecord := rfl
@[simp] theorem setPc_output : (setPc n s).output = s.output := rfl
@[simp] theorem setPc_memory : (setPc n s).memory = s.memory := rfl

@[simp] theorem advance_regs : (advance n s).regs = s.regs := rfl
@[simp] theorem advance_pc : (advance n s).pc = BitVec.ofNat 9 (s.pc.toNat + 1 + n) := rfl
@[simp] theorem advance_flags : (advance n s).flags = s.flags := rfl
@[simp] theorem advance_runState : (advance n s).runState = s.runState := rfl
@[simp] theorem advance_faultRecord : (advance n s).faultRecord = s.faultRecord := rfl
@[simp] theorem advance_output : (advance n s).output = s.output := rfl
@[simp] theorem advance_memory : (advance n s).memory = s.memory := rfl

@[simp] theorem faultedState_regs : (faultedState c s).regs = s.regs := rfl
@[simp] theorem faultedState_pc : (faultedState c s).pc = s.pc := rfl
@[simp] theorem faultedState_flags : (faultedState c s).flags = s.flags := rfl
@[simp] theorem faultedState_runState : (faultedState c s).runState = .faulted := rfl
@[simp] theorem faultedState_faultRecord : (faultedState c s).faultRecord = c.record s.pc := rfl
@[simp] theorem faultedState_output : (faultedState c s).output = s.output := rfl
@[simp] theorem faultedState_memory : (faultedState c s).memory = s.memory := rfl

@[simp] theorem decSp_pc : (decSp s).pc = s.pc := rfl
@[simp] theorem decSp_flags : (decSp s).flags = s.flags := rfl
@[simp] theorem decSp_runState : (decSp s).runState = s.runState := rfl
@[simp] theorem decSp_faultRecord : (decSp s).faultRecord = s.faultRecord := rfl
@[simp] theorem decSp_output : (decSp s).output = s.output := rfl
@[simp] theorem decSp_memory : (decSp s).memory = s.memory := rfl

@[simp] theorem incSp_pc : (incSp s).pc = s.pc := rfl
@[simp] theorem incSp_flags : (incSp s).flags = s.flags := rfl
@[simp] theorem incSp_runState : (incSp s).runState = s.runState := rfl
@[simp] theorem incSp_faultRecord : (incSp s).faultRecord = s.faultRecord := rfl
@[simp] theorem incSp_output : (incSp s).output = s.output := rfl
@[simp] theorem incSp_memory : (incSp s).memory = s.memory := rfl

/-! ### Registers -/

/-- A register reads the byte just set in it, every other register reads as before. -/
theorem readReg_setReg : readReg j (s.setReg i v) = if j = i then v else readReg j s := by
  unfold readReg State.setReg
  have := Vector.getElem_set (xs := s.regs) (x := v) (i := i.val) (j := j.val) i.isLt j.isLt
  rw [Vector.get_eq_getElem, Vector.get_eq_getElem, this]
  simp only [Fin.ext_iff, eq_comm]

/-- `writeReg` leaves the low 8 bits in the register and every other register as before. -/
theorem readReg_writeReg : readReg j (writeReg i x s) = if j = i then u8 x else readReg j s :=
  readReg_setReg s i j (u8 x)

@[simp] theorem readReg_writeReg_same : readReg i (writeReg i x s) = u8 x := by
  simp [readReg_writeReg]

theorem readReg_writeReg_ne (h : j ≠ i) : readReg j (writeReg i x s) = readReg j s := by
  simp [readReg_writeReg, h]

@[simp] theorem readReg_setByte : readReg i (s.setByte a v) = readReg i s := rfl
@[simp] theorem readReg_emit : readReg i (emit v s) = readReg i s := rfl
@[simp] theorem readReg_setFlags : readReg i (s.setFlags f) = readReg i s := rfl
@[simp] theorem readReg_setPc : readReg i (setPc n s) = readReg i s := rfl
@[simp] theorem readReg_advance : readReg i (advance n s) = readReg i s := rfl
@[simp] theorem readReg_faultedState : readReg i (faultedState c s) = readReg i s := rfl

/-- SP is another name for `x[7]` (00_scope R13). -/
@[simp] theorem readSp_eq : readSp s = readReg 7 s := rfl

/-- A push decrements SP and touches no other register. -/
theorem readReg_decSp : readReg j (decSp s) = if j = 7 then pushAddr s else readReg j s :=
  readReg_writeReg s 7 j _

/-- A pop increments SP and touches no other register. -/
theorem readReg_incSp :
    readReg j (incSp s) = if j = 7 then u8 ((readReg 7 s).toNat + 1 : Int) else readReg j s :=
  readReg_writeReg s 7 j _

/-! ### Reset -/

@[simp] theorem reset_pc : State.reset.pc = 0 := rfl
@[simp] theorem reset_flags : State.reset.flags = ⟨false, false, false⟩ := rfl
@[simp] theorem reset_runState : State.reset.runState = .running := rfl
@[simp] theorem reset_output : State.reset.output = [] := rfl
@[simp] theorem reset_memory : State.reset.memory = [] := rfl

variable (h : HeldInReset)

@[simp] theorem assertReset_memory : s.assertReset.memory = s.memory := rfl
@[simp] theorem assertReset_runState : s.assertReset.runState = s.runState := rfl
@[simp] theorem assertReset_faultRecord : s.assertReset.faultRecord = s.faultRecord := rfl
@[simp] theorem assertReset_output : s.assertReset.output = s.output := rfl

@[simp] theorem release_regs : h.release.regs = resetRegs := rfl
@[simp] theorem release_pc : h.release.pc = 0 := rfl
@[simp] theorem release_flags : h.release.flags = ⟨false, false, false⟩ := rfl
@[simp] theorem release_runState : h.release.runState = .running := rfl
@[simp] theorem release_faultRecord : h.release.faultRecord = FaultRecord.reset := rfl
@[simp] theorem release_output : h.release.output = [] := rfl
@[simp] theorem release_memory : h.release.memory = h.memory := rfl

/-- Writing a byte while reset is held changes memory only. -/
theorem hostWrite_eq {h h' : HeldInReset} {a : Nat} {v : Byte} (hw : h.hostWrite a v = some h') :
    a ≤ maxAddr ∧ h' = { h with memory := Memory.set h.memory a v } := by
  unfold HeldInReset.hostWrite at hw
  split_ifs at hw with ha
  exact ⟨ha, (Option.some.inj hw).symm⟩

/-- Loading a program while reset is held changes memory only. -/
theorem load_eq {h h' : HeldInReset} {program : List Byte} (hl : h.load program = some h') :
    program.length ≤ maxAddr + 1 ∧ h' = { h with memory := Memory.setBytes [] 0 program } := by
  unfold HeldInReset.load at hl
  split_ifs at hl with hlen
  exact ⟨hlen, (Option.some.inj hl).symm⟩

end Sys2Proof.Machine
end

