-- ==== Sys2Proof/Laws/Ops.lean ====
section
/-! SUPPORT. What each shared operation can do, said once: the operand checks, the stack rules, fetching, a step. -/

namespace Sys2Proof.Machine

@[simp] theorem policy_illegal : policy.illegalPolicy = .fault := rfl
@[simp] theorem policy_stubJumps : policy.stubJumps = .implement := rfl
@[simp] theorem policy_r7 : policy.r7Operand = .sequential := rfl
@[simp] theorem policy_pcAfterHlt : policy.pcAfterHlt = .atHlt := rfl

/-! ### Truncation -/

/-- `u8` of a natural number is its remainder modulo 256. -/
theorem u8_natCast_toNat (n : Nat) : (u8 (n : Int)).toNat = n % 256 := by
  unfold u8
  rw [BitVec.ofInt_natCast, BitVec.toNat_ofNat]

/-- `u8` of an integer is its non-negative remainder modulo 256 (00_scope R12). -/
theorem u8_toNat (x : Int) : ((u8 x).toNat : Int) = x % 256 := by
  unfold u8
  rw [BitVec.toNat_ofInt]
  exact Int.toNat_of_nonneg (Int.emod_nonneg _ (by decide))

/-- `u8` of a byte's value is the byte. -/
@[simp] theorem u8_toNat_self (b : Byte) : u8 (b.toNat : Int) = b := by
  apply BitVec.eq_of_toNat_eq
  rw [u8_natCast_toNat]
  exact Nat.mod_eq_of_lt b.isLt

/-- One more, modulo 256. -/
theorem u8_add_one_toNat (b : Byte) : (u8 ((b.toNat : Int) + 1)).toNat = (b.toNat + 1) % 256 := by
  have := u8_toNat ((b.toNat : Int) + 1)
  omega

/-- The push address is SP less one, modulo 256 (42_data_transfer R143). -/
theorem pushAddr_toNat (s : State) : (pushAddr s).toNat = ((readReg 7 s).toNat + 255) % 256 := by
  have := u8_toNat ((readReg 7 s).toNat - 1 : Int)
  have := (readReg 7 s).isLt
  unfold pushAddr
  rw [readSp_eq]
  omega

/-- A byte as a jump target is that address. -/
theorem pcOfByte_toNat (b : Byte) : (BitVec.ofNat 9 b.toNat).toNat = b.toNat := by
  rw [BitVec.toNat_ofNat]
  exact Nat.mod_eq_of_lt (Nat.lt_of_lt_of_le b.isLt (by decide))

/-- An advance past an instruction that lies in memory does not wrap (10_state R29). -/
theorem advance_advancedPast (n : Nat) {s t : State} (h : t.pc = BitVec.ofNat 9 (s.pc.toNat + 1 + n)) :
    AdvancedPast n s t := by
  intro hn
  rw [h, BitVec.toNat_ofNat]
  omega

/-! ### Operands -/

theorem regIndex_ok (b : Byte) (h : b.toNat < 8) : regIndex b = .ok ⟨b.toNat, h⟩ := by
  simp [regIndex, h]

theorem regIndex_error (b : Byte) (h : 8 ≤ b.toNat) : regIndex b = .error (.outOfBoundsRegister b) := by
  simp [regIndex, Nat.not_lt.mpr h]

@[simp] theorem regByte_toNat (i : Fin 8) : (regByte i).toNat = i.val := by
  unfold regByte
  rw [BitVec.toNat_ofNat]
  omega

@[simp] theorem regIndex_regByte (i : Fin 8) : regIndex (regByte i) = .ok i := by
  rw [regIndex_ok _ (by simp)]
  simp

/-- The register check of formats R and RI, then the rule. -/
@[simp] theorem withReg_regByte (i : Fin 8) (s : State) (rule : Fin 8 → Except FaultCause State) :
    withReg (regByte i) s rule = conclude s (rule i) := by
  simp [withReg]

/-- The register check of format RR, then the rule. -/
@[simp] theorem withRegs_regByte (i j : Fin 8) (s : State) (rule : Fin 8 → Fin 8 → Except FaultCause State) :
    withRegs (regByte i) (regByte j) s rule = conclude s (rule i j) := by
  simp [withRegs]

@[simp] theorem conclude_ok (s t : State) : conclude s (.ok t) = .next t := rfl
@[simp] theorem conclude_error (s : State) (c : FaultCause) : conclude s (.error c) = .next (faultedState c s) := rfl

/-- All an instruction's end can be: its new state, or the fault it raised. -/
theorem conclude_cases {s t : State} {r : Except FaultCause State} (h : conclude s r = .next t) :
    r = .ok t ∨ ∃ c, r = .error c ∧ t = faultedState c s := by
  cases r with
  | ok u => exact .inl (by simpa [conclude] using h)
  | error c => exact .inr ⟨c, rfl, by simpa [conclude, raise, eq_comm] using h⟩

/-- All the check of one register operand can do. -/
theorem withReg_cases {a : Byte} {s t : State} {rule : Fin 8 → Except FaultCause State} (h : withReg a s rule = .next t) :
    (8 ≤ a.toNat ∧ t = faultedState (.outOfBoundsRegister a) s) ∨
    ∃ i : Fin 8, a = regByte i ∧ conclude s (rule i) = .next t := by
  by_cases ha : a.toNat < 8
  · refine .inr ⟨⟨a.toNat, ha⟩, ?_, ?_⟩
    · exact BitVec.eq_of_toNat_eq (by simp)
    · simpa [withReg, regIndex_ok a ha] using h
  · have ha := Nat.not_lt.mp ha
    refine .inl ⟨ha, ?_⟩
    simpa [withReg, regIndex_error a ha, raise, eq_comm] using h

/-- All the check of two register operands can do: the first bad one is reported. -/
theorem withRegs_cases {a b : Byte} {s t : State} {rule : Fin 8 → Fin 8 → Except FaultCause State}
    (h : withRegs a b s rule = .next t) :
    (∃ r, 8 ≤ r.toNat ∧ t = faultedState (.outOfBoundsRegister r) s) ∨
    ∃ i j : Fin 8, a = regByte i ∧ b = regByte j ∧ conclude s (rule i j) = .next t := by
  by_cases ha : a.toNat < 8
  · by_cases hb : b.toNat < 8
    · refine .inr ⟨⟨a.toNat, ha⟩, ⟨b.toNat, hb⟩, ?_, ?_, ?_⟩
      · exact BitVec.eq_of_toNat_eq (by simp)
      · exact BitVec.eq_of_toNat_eq (by simp)
      · simpa [withRegs, regIndex_ok a ha, regIndex_ok b hb] using h
    · have hb := Nat.not_lt.mp hb
      refine .inl ⟨b, hb, ?_⟩
      simpa [withRegs, regIndex_ok a ha, regIndex_error b hb, raise, eq_comm] using h
  · have ha := Nat.not_lt.mp ha
    refine .inl ⟨a, ha, ?_⟩
    simpa [withRegs, regIndex_error a ha, raise, eq_comm] using h

@[simp] theorem stackOperand_sequential (i : Fin 8) : stackOperand .sequential i = .ok i := rfl

/-! ### The stack -/

/-- A push never fails: one byte, the register as it reads after SP is decremented, at the push address. -/
theorem pushRule_eq (a : Fin 8) (s : State) :
    pushRule a s = .ok (advance 1 ((decSp s).setByte (pushAddr s).toNat (readReg a (decSp s)))) := by
  have hsp : readSp (decSp s) = pushAddr s := by
    rw [readSp_eq, readReg_decSp, if_pos rfl]
  simp only [pushRule, hsp, memWrite_byte]

/-- The top of the stack never fails to read. -/
theorem stackTop_eq (s : State) : stackTop s = .ok (Memory.get s.memory (readReg 7 s).toNat) := memRead_byte _ _

/-- A pop never fails: the byte at SP into the register, then SP as it now is incremented. -/
theorem popRule_eq (a : Fin 8) (s : State) :
    popRule a s = .ok (advance 1 (incSp (writeReg a (Memory.get s.memory (readReg 7 s).toNat).toNat s))) := by
  simp only [popRule, stackTop_eq]

/-- A call pushes `pc + 2` where that is a byte, and is OutOfBounds otherwise. -/
theorem callRule_eq (a : Fin 8) (s : State) :
    callRule a s =
      if 255 < s.pc.toNat + 2 then .error (.outOfBoundsMemory (s.pc.toNat + 2))
      else .ok (setPc (readReg a (decSp s)).toNat ((decSp s).setByte (pushAddr s).toNat (u8 (s.pc.toNat + 2 : Nat)))) := by
  have hsp : readSp (decSp s) = pushAddr s := by
    rw [readSp_eq, readReg_decSp, if_pos rfl]
  simp only [callRule, hsp, memWrite_byte, maxAddr, readReg_setByte]

/-! ### Fetching and stepping -/

/-- A byte of the instruction at `pc` is the byte of memory there, where there is one. -/
theorem fetchByte_eq (s : State) (k : Nat) :
    fetchByte s k = if s.pc.toNat + k ≤ 255 then some (readByte (s.pc.toNat + k) s) else none := by
  unfold fetchByte memRead maxAddr
  by_cases h : s.pc.toNat + k ≤ 255
  · simp [h, readByte]
  · simp [h]

/-- The step of a RUNNING machine whose bytes at `pc` decode. -/
theorem step_ok {s : State} {ins : Instr} (hr : s.runState = .running) (h : fetchDecode s = .ok ins) :
    step s = exec ins s := by
  unfold step
  rw [hr, h]

/-- The step of a RUNNING machine whose bytes at `pc` do not decode. -/
theorem step_error {s : State} {e : DecodeError} (hr : s.runState = .running) (h : fetchDecode s = .error e) :
    step s = undecoded e s := by
  unfold step
  rw [hr, h]

/-- Only a RUNNING machine steps, and its step is the decoded instruction or the engine's answer to undecodable bytes. -/
theorem step_cases {s t : State} (h : step s = .next t) :
    s.runState = .running ∧
    ((∃ e, fetchDecode s = .error e ∧ undecoded e s = .next t) ∨ ∃ i, fetchDecode s = .ok i ∧ exec i s = .next t) := by
  unfold step at h
  cases hr : s.runState with
  | halted => simp [hr, stoppedHalted] at h
  | faulted => simp [hr, stoppedFaulted] at h
  | running =>
    refine ⟨rfl, ?_⟩
    simp only [hr] at h
    cases hd : fetchDecode s with
    | error e => exact .inl ⟨e, rfl, by simpa [hd] using h⟩
    | ok i => exact .inr ⟨i, rfl, by simpa [hd] using h⟩

/-- Bytes that are no instruction always take a fault. -/
theorem undecoded_cases {e : DecodeError} {s t : State} (h : undecoded e s = .next t) :
    (∃ k, e = .missingByte k ∧ t = faultedState (.outOfBoundsMemory (s.pc.toNat + k)) s) ∨
    (∃ op, e = .unsupportedOperation op ∧ t = faultedState (.unsupportedOperation op) s) ∨
    (∃ op, e = .illegalInstruction op ∧ t = faultedState (.illegalInstruction op) s) := by
  cases e with
  | missingByte k => exact .inl ⟨k, rfl, by simpa [undecoded, raise, eq_comm] using h⟩
  | unsupportedOperation op => exact .inr (.inl ⟨op, rfl, by simpa [undecoded, raise, eq_comm] using h⟩)
  | illegalInstruction op =>
    exact .inr (.inr ⟨op, rfl, by simpa [undecoded, illegalOpcode, raise, eq_comm] using h⟩)

end Sys2Proof.Machine
end

