-- ==== Sys2Proof/Laws/Exec.lean ====
section
/-! SUPPORT. What `exec` answers, one equation per instruction on register operands, and what it can do on any. -/

namespace Sys2Proof.Machine

variable (s : State) (i j : Fin 8) (v : Byte)

/-! ### The conditions of the jumps -/

@[simp] theorem flags_eq (f : Flags) : f.eq = f.e := rfl
@[simp] theorem flags_ne (f : Flags) : f.ne = !f.e := rfl
@[simp] theorem flags_gt (f : Flags) : f.gt = f.g := rfl
@[simp] theorem flags_lt (f : Flags) : f.lt = f.l := rfl
@[simp] theorem flags_le (f : Flags) : f.le = (f.l || f.e) := rfl
@[simp] theorem flags_ge (f : Flags) : f.ge = (f.g || f.e) := rfl

/-! ### One equation per instruction -/

theorem exec_nop : exec .nop s = .next (advance 0 s) := rfl
theorem exec_hlt : exec .hlt s = .next { s with runState := .halted } := rfl
theorem exec_pra : exec (.pra v) s = .next (advance 1 s) := rfl
theorem exec_int : exec .int s = .next (faultedState (.illegalInstruction 0x52#8) s) := rfl
theorem exec_iret : exec .iret s = .next (faultedState (.illegalInstruction 0x13#8) s) := rfl
theorem exec_add : exec (.add (regByte i) (regByte j)) s =
    .next (advance 2 (writeReg i (aluAdd (readReg i s) (readReg j s)) s)) :=
  withRegs_regByte i j s _
theorem exec_sub : exec (.sub (regByte i) (regByte j)) s =
    .next (advance 2 (writeReg i (aluSub (readReg i s) (readReg j s)) s)) :=
  withRegs_regByte i j s _
theorem exec_mul : exec (.mul (regByte i) (regByte j)) s =
    .next (advance 2 (writeReg i (aluMul (readReg i s) (readReg j s)) s)) :=
  withRegs_regByte i j s _
theorem exec_and : exec (.and (regByte i) (regByte j)) s =
    .next (advance 2 (writeReg i (aluAnd (readReg i s) (readReg j s)) s)) :=
  withRegs_regByte i j s _
theorem exec_or : exec (.or (regByte i) (regByte j)) s =
    .next (advance 2 (writeReg i (aluOr (readReg i s) (readReg j s)) s)) :=
  withRegs_regByte i j s _
theorem exec_xor : exec (.xor (regByte i) (regByte j)) s =
    .next (advance 2 (writeReg i (aluXor (readReg i s) (readReg j s)) s)) :=
  withRegs_regByte i j s _
theorem exec_shl : exec (.shl (regByte i) (regByte j)) s =
    .next (advance 2 (writeReg i (aluShl (readReg i s) (readReg j s)) s)) :=
  withRegs_regByte i j s _
theorem exec_shr : exec (.shr (regByte i) (regByte j)) s =
    .next (advance 2 (writeReg i (aluShr (readReg i s) (readReg j s)) s)) :=
  withRegs_regByte i j s _
theorem exec_div : exec (.div (regByte i) (regByte j)) s =
    if readReg j s = 0#8 then .next (faultedState (.divideByZero (regByte j)) s)
    else .next (advance 2 (writeReg i (aluDiv (readReg i s) (readReg j s)) s)) := by
  refine (withRegs_regByte i j s _).trans ?_
  split_ifs <;> rfl
theorem exec_mod : exec (.mod (regByte i) (regByte j)) s =
    if readReg j s = 0#8 then .next (faultedState (.divideByZero (regByte j)) s)
    else .next (advance 2 (writeReg i (aluMod (readReg i s) (readReg j s)) s)) := by
  refine (withRegs_regByte i j s _).trans ?_
  split_ifs <;> rfl
theorem exec_inc : exec (.inc (regByte i)) s = .next (advance 1 (writeReg i (aluInc (readReg i s)) s)) :=
  withReg_regByte i s _
theorem exec_dec : exec (.dec (regByte i)) s = .next (advance 1 (writeReg i (aluDec (readReg i s)) s)) :=
  withReg_regByte i s _
theorem exec_not : exec (.not (regByte i)) s = .next (advance 1 (writeReg i (aluNot (readReg i s)) s)) :=
  withReg_regByte i s _
theorem exec_cmp : exec (.cmp (regByte i) (regByte j)) s =
    .next (advance 2 (s.setFlags (compareFlags (readReg i s) (readReg j s)))) :=
  withRegs_regByte i j s _
theorem exec_ldi : exec (.ldi (regByte i) v) s = .next (advance 2 (writeReg i v.toNat s)) :=
  withReg_regByte i s _
theorem exec_ld : exec (.ld (regByte i) (regByte j)) s =
    .next (advance 2 (writeReg i (Memory.get s.memory (readReg j s).toNat).toNat s)) :=
  (withRegs_regByte i j s _).trans (by rw [memRead_byte]; rfl)
theorem exec_st : exec (.st (regByte i) (regByte j)) s =
    .next (advance 2 (s.setByte (readReg i s).toNat (readReg j s))) :=
  (withRegs_regByte i j s _).trans (by rw [memWrite_byte]; rfl)
theorem exec_push : exec (.push (regByte i)) s =
    .next (advance 1 ((decSp s).setByte (pushAddr s).toNat (readReg i (decSp s)))) :=
  (withReg_regByte i s _).trans (congrArg (conclude s) (pushRule_eq i s))
theorem exec_pop : exec (.pop (regByte i)) s =
    .next (advance 1 (incSp (writeReg i (Memory.get s.memory (readReg 7 s).toNat).toNat s))) :=
  (withReg_regByte i s _).trans (congrArg (conclude s) (popRule_eq i s))
theorem exec_prn : exec (.prn (regByte i)) s = .next (advance 1 (emit (readReg i s) s)) :=
  withReg_regByte i s _
theorem exec_call : exec (.call (regByte i)) s =
    if 255 < s.pc.toNat + 2 then .next (faultedState (.outOfBoundsMemory (s.pc.toNat + 2)) s)
    else .next (setPc (readReg i (decSp s)).toNat
      ((decSp s).setByte (pushAddr s).toNat (u8 (s.pc.toNat + 2 : Nat)))) := by
  refine ((withReg_regByte i s _).trans (congrArg (conclude s) (callRule_eq i s))).trans ?_
  split_ifs <;> rfl
theorem exec_ret : exec .ret s = .next (incSp (setPc (Memory.get s.memory (readReg 7 s).toNat).toNat s)) := by
  rw [exec, execRet, stackTop_eq]
  rfl
theorem exec_jmp : exec (.jmp (regByte i)) s = .next (setPc (readReg i s).toNat s) :=
  withReg_regByte i s _
theorem exec_jeq : exec (.jeq (regByte i)) s =
    .next (if s.flags.eq then setPc (readReg i s).toNat s else advance 1 s) :=
  withReg_regByte i s _
theorem exec_jne : exec (.jne (regByte i)) s =
    .next (if s.flags.ne then setPc (readReg i s).toNat s else advance 1 s) :=
  withReg_regByte i s _
theorem exec_jgt : exec (.jgt (regByte i)) s =
    .next (if s.flags.gt then setPc (readReg i s).toNat s else advance 1 s) :=
  withReg_regByte i s _
theorem exec_jlt : exec (.jlt (regByte i)) s =
    .next (if s.flags.lt then setPc (readReg i s).toNat s else advance 1 s) :=
  withReg_regByte i s _
theorem exec_jle : exec (.jle (regByte i)) s =
    .next (if s.flags.le then setPc (readReg i s).toNat s else advance 1 s) :=
  withReg_regByte i s _
theorem exec_jge : exec (.jge (regByte i)) s =
    .next (if s.flags.ge then setPc (readReg i s).toNat s else advance 1 s) :=
  withReg_regByte i s _

/-- A bad register operand: the first one is reported (40_engine_cycle R85). -/
theorem exec_badReg {ins : Instr} {r : Byte} (h : ins.regOperands.find? (fun b => decide (7 < b.toNat)) = some r) :
    exec ins s = .next (faultedState (.outOfBoundsRegister r) s) := by
  have one : ∀ (a : Byte) (rule : Fin 8 → Except FaultCause State),
      [a].find? (fun b => decide (7 < b.toNat)) = some r →
      withReg a s rule = .next (faultedState (.outOfBoundsRegister r) s) := by
    intro a rule h
    have ha := List.find?_some h
    obtain rfl : r = a := by simpa using List.mem_of_find?_eq_some h
    simp only [decide_eq_true_eq] at ha
    simp [withReg, regIndex_error r ha, raise]
  have two : ∀ (a b : Byte) (rule : Fin 8 → Fin 8 → Except FaultCause State),
      [a, b].find? (fun b => decide (7 < b.toNat)) = some r →
      withRegs a b s rule = .next (faultedState (.outOfBoundsRegister r) s) := by
    intro a b rule h
    rw [List.find?_cons] at h
    by_cases ha : 7 < a.toNat
    · obtain rfl : a = r := by simpa [ha] using h
      simp [withRegs, regIndex_error a ha, raise]
    · rw [decide_eq_false ha] at h
      have hb := List.find?_some h
      obtain rfl : r = b := by simpa using List.mem_of_find?_eq_some h
      simp only [decide_eq_true_eq] at hb
      simp [withRegs, regIndex_ok a (by omega), regIndex_error r hb, raise]
  cases ins
  case nop => simp [Instr.regOperands] at h
  case hlt => simp [Instr.regOperands] at h
  case ret => simp [Instr.regOperands] at h
  case iret => simp [Instr.regOperands] at h
  case pra => simp [Instr.regOperands] at h
  case int => simp [Instr.regOperands] at h
  all_goals first | exact one _ _ h | exact two _ _ _ h

/-- Every operand that names a register is `regByte` of it. -/
theorem eq_regByte {b : Byte} (h : isRegByte b = true) : ∃ i : Fin 8, b = regByte i :=
  ⟨⟨b.toNat, by simpa [isRegByte] using h⟩, BitVec.eq_of_toNat_eq (by simp)⟩

/-- An instruction either reports its first bad register operand or is well-formed. -/
theorem badReg_or_wf (ins : Instr) :
    (∃ r, ins.regOperands.find? (fun b => decide (7 < b.toNat)) = some r ∧ 7 < r.toNat) ∨ WellFormed ins := by
  cases h : ins.regOperands.find? (fun b => decide (7 < b.toNat)) with
  | some r => exact .inl ⟨r, rfl, by simpa using List.find?_some h⟩
  | none =>
    refine .inr (List.all_eq_true.mpr fun b hb => ?_)
    have := List.find?_eq_none.mp h b hb
    simp only [decide_eq_true_eq, not_lt] at this
    simpa [isRegByte] using Nat.lt_succ_of_le this

/-- All `exec` can do to the run state and the fault record: keep both, halt, or take a fault. -/
theorem exec_cases {ins : Instr} {s t : State} (h : exec ins s = .next t) :
    (t.runState = s.runState ∧ t.faultRecord = s.faultRecord) ∨ (ins = .hlt ∧ t = { s with runState := .halted }) ∨
      ∃ c, t = faultedState c s := by
  rcases badReg_or_wf ins with ⟨r, hr, -⟩ | hw
  · rw [exec_badReg s hr] at h
    exact .inr (.inr ⟨_, (Host.Outcome.next.inj h).symm⟩)
  · cases ins
    case hlt => exact .inr (.inl ⟨rfl, (Host.Outcome.next.inj h).symm⟩)
    case int => exact .inr (.inr ⟨_, (Host.Outcome.next.inj h).symm⟩)
    case iret => exact .inr (.inr ⟨_, (Host.Outcome.next.inj h).symm⟩)
    case nop => cases h; exact .inl ⟨rfl, rfl⟩
    case pra => cases h; exact .inl ⟨rfl, rfl⟩
    case ret => rw [exec_ret] at h; cases h; exact .inl ⟨rfl, rfl⟩
    all_goals
      simp only [WellFormed, Instr.wf, Instr.regOperands, List.all_cons, List.all_nil, Bool.and_true, Bool.and_eq_true] at hw
    case push r | pop r | prn r | jmp r | inc r | dec r | not r | ldi r _ =>
      obtain ⟨i, rfl⟩ := eq_regByte hw
      simp only [exec_push, exec_pop, exec_prn, exec_jmp, exec_inc, exec_dec, exec_not, exec_ldi] at h
      cases h
      exact .inl ⟨rfl, rfl⟩
    case jeq r | jne r | jgt r | jlt r | jle r | jge r =>
      obtain ⟨i, rfl⟩ := eq_regByte hw
      simp only [exec_jeq, exec_jne, exec_jgt, exec_jlt, exec_jle, exec_jge] at h
      cases h
      split_ifs <;> exact .inl ⟨rfl, rfl⟩
    case call r =>
      obtain ⟨i, rfl⟩ := eq_regByte hw
      rw [exec_call] at h
      split_ifs at h <;> cases h
      · exact .inr (.inr ⟨_, rfl⟩)
      · exact .inl ⟨rfl, rfl⟩
    case div a b | mod a b =>
      obtain ⟨⟨i, rfl⟩, ⟨j, rfl⟩⟩ := And.intro (eq_regByte hw.1) (eq_regByte hw.2)
      simp only [exec_div, exec_mod] at h
      split_ifs at h <;> cases h
      · exact .inr (.inr ⟨_, rfl⟩)
      · exact .inl ⟨rfl, rfl⟩
    all_goals
      obtain ⟨⟨i, rfl⟩, ⟨j, rfl⟩⟩ := And.intro (eq_regByte hw.1) (eq_regByte hw.2)
      simp only [exec_add, exec_sub, exec_mul, exec_and, exec_or, exec_xor, exec_shl, exec_shr, exec_cmp, exec_ld, exec_st] at h
      cases h
      exact .inl ⟨rfl, rfl⟩

end Sys2Proof.Machine
end

