-- ==== Sys2Proof/Laws/Fetch.lean ====
section
/-! SUPPORT. What fetching and decoding at `pc` tells of the state (40_engine_cycle R81 to R84), said once each way. -/

namespace Sys2Proof.Machine

/-- A format comes from a row of the map. -/
theorem formOf_some {map : List OpcodeRow} {op : Byte} {f : Form} (h : formOf map op = some f) :
    ∃ row ∈ map, row.opcode = op ∧ row.form = f := by
  induction map with
  | nil => simp [formOf] at h
  | cons row map ih =>
    simp only [formOf] at h
    split_ifs at h with hrow
    · exact ⟨row, by simp, hrow, Option.some.inj h⟩
    · obtain ⟨row', hmem, h'⟩ := ih h
      exact ⟨row', by simp [hmem], h'⟩

/-- An opcode without a row is none of the map's. -/
theorem formOf_none {map : List OpcodeRow} {op : Byte} (h : formOf map op = none) : ∀ row ∈ map, row.opcode ≠ op := by
  induction map with
  | nil => simp
  | cons row map ih =>
    simp only [formOf] at h
    split_ifs at h with hrow
    intro row' hmem
    rcases List.mem_cons.mp hmem with rfl | hmem
    · exact hrow
    · exact ih h row' hmem

/-- The opcode map's opcodes are those of 30_encoding R64. -/
theorem opcodeMap_covers : ∀ op ∈ definedOpcodes, ∃ row ∈ opcodeMap, row.opcode = op := by
  intro op h
  have : op ∈ opcodeMap.map OpcodeRow.opcode := by
    revert op
    decide
  simpa using this

/-- The operand bytes a format reads (40_engine_cycle R83, R84). -/
def formReads : Form → Nat
  | .z _ => 0
  | .faulting _ => 0
  | .r _ => 1
  | .rr _ => 2
  | .ri _ => 2

/-- Every row's opcode is defined, and a row whose format reads operand bytes is not INT or IRET and reads as many as bits
7..6 of its opcode say (30_encoding R65, R70). -/
theorem opcodeMap_rows : ∀ row ∈ opcodeMap, row.opcode ∈ definedOpcodes ∧
    (1 ≤ formReads row.form → row.opcode ∉ [0x13#8, 0x52#8] ∧ opOperandCount row.opcode = formReads row.form) := by
  decide

/-- What a reader's bytes decode to, by the format of the opcode: the whole decoder but for the bytes' values. -/
theorem decodeFrom_error {map : List OpcodeRow} {rd : Nat → Option Byte} {e : DecodeError}
    (h : decodeFrom map rd = .error e) :
    (rd 0 = none ∧ e = .missingByte 0) ∨
    ∃ op, rd 0 = some op ∧ op ≠ haltOpcode ∧
      ((formOf map op = none ∧ e = undefinedOpcode op) ∨
       ∃ f, formOf map op = some f ∧
         ((1 ≤ formReads f ∧ rd 1 = none ∧ e = .missingByte 1) ∨
          (formReads f = 2 ∧ (∃ a, rd 1 = some a) ∧ rd 2 = none ∧ e = .missingByte 2))) := by
  unfold decodeFrom at h
  cases h0 : rd 0 with
  | none => exact .inl ⟨rfl, by simpa [h0, eq_comm] using h⟩
  | some op =>
    simp only [h0] at h
    refine .inr ⟨op, rfl, ?_⟩
    by_cases hh : op = haltOpcode
    · simp [hh] at h
    · refine ⟨hh, ?_⟩
      simp only [hh, if_false] at h
      cases hf : formOf map op with
      | none => exact .inl ⟨rfl, by simpa [hf, eq_comm] using h⟩
      | some f =>
        refine .inr ⟨f, rfl, ?_⟩
        rw [hf] at h
        cases f with
        | z i => simp at h
        | faulting i => simp at h
        | r make =>
          cases h1 : rd 1 with
          | none => exact .inl ⟨by simp [formReads], rfl, by simpa [h1, eq_comm] using h⟩
          | some a => simp [h1] at h
        | rr make =>
          cases h1 : rd 1 with
          | none => exact .inl ⟨by simp [formReads], rfl, by simpa [h1, eq_comm] using h⟩
          | some a =>
            cases h2 : rd 2 with
            | none => exact .inr ⟨rfl, ⟨a, rfl⟩, rfl, by simpa [h1, h2, eq_comm] using h⟩
            | some b => simp [h1, h2] at h
        | ri make =>
          cases h1 : rd 1 with
          | none => exact .inl ⟨by simp [formReads], rfl, by simpa [h1, eq_comm] using h⟩
          | some a =>
            cases h2 : rd 2 with
            | none => exact .inr ⟨rfl, ⟨a, rfl⟩, rfl, by simpa [h1, h2, eq_comm] using h⟩
            | some b => simp [h1, h2] at h

/-- What a reader's bytes decode to, where they decode: HLT, or the instruction the opcode's row makes of them. -/
theorem decodeFrom_ok {map : List OpcodeRow} {rd : Nat → Option Byte} {ins : Instr} (h : decodeFrom map rd = .ok ins) :
    ∃ op, rd 0 = some op ∧
      ((op = haltOpcode ∧ ins = .hlt) ∨ formOf map op = some (.z ins) ∨ formOf map op = some (.faulting ins) ∨
       (∃ make a, formOf map op = some (.r make) ∧ rd 1 = some a ∧ ins = make a) ∨
       (∃ make a b, (formOf map op = some (.rr make) ∨ formOf map op = some (.ri make)) ∧
          rd 1 = some a ∧ rd 2 = some b ∧ ins = make a b)) := by
  unfold decodeFrom at h
  cases h0 : rd 0 with
  | none => simp [h0] at h
  | some op =>
    refine ⟨op, rfl, ?_⟩
    simp only [h0] at h
    by_cases hh : op = haltOpcode
    · exact .inl ⟨hh, by simpa [hh, eq_comm] using h⟩
    · simp only [hh, if_false] at h
      cases hf : formOf map op with
      | none => simp [hf] at h
      | some f =>
        rw [hf] at h
        cases f with
        | z i => exact .inr (.inl (by simpa using h))
        | faulting i => exact .inr (.inr (.inl (by simpa using h)))
        | r make =>
          cases h1 : rd 1 with
          | none => simp [h1] at h
          | some a => exact .inr (.inr (.inr (.inl ⟨make, a, rfl, rfl, by simpa [h1, eq_comm] using h⟩)))
        | rr make =>
          cases h1 : rd 1 with
          | none => simp [h1] at h
          | some a =>
            cases h2 : rd 2 with
            | none => simp [h1, h2] at h
            | some b =>
              exact .inr (.inr (.inr (.inr ⟨make, a, b, .inl rfl, rfl, rfl, by simpa [h1, h2, eq_comm] using h⟩)))
        | ri make =>
          cases h1 : rd 1 with
          | none => simp [h1] at h
          | some a =>
            cases h2 : rd 2 with
            | none => simp [h1, h2] at h
            | some b =>
              exact .inr (.inr (.inr (.inr ⟨make, a, b, .inr rfl, rfl, rfl, by simpa [h1, h2, eq_comm] using h⟩)))

/-- What a row's format makes of operand bytes encodes to the row's opcode and those bytes, INT's operand byte aside. -/
def rowEncodes (op : Byte) : Form → Prop
  | .z i => encode i = [op]
  | .faulting i => i.opcode = op ∧ (i = .int ∨ encode i = [op])
  | .r make => ∀ a, encode (make a) = [op, a]
  | .rr make => ∀ a b, encode (make a b) = [op, a, b]
  | .ri make => ∀ a b, encode (make a b) = [op, a, b]

theorem opcodeMap_encodes : ∀ row ∈ opcodeMap, rowEncodes row.opcode row.form := by
  intro row hm
  simp only [opcodeMap, rowsZ, rowsR, rowsAluR, rowsRR, List.cons_append, List.nil_append, List.mem_cons,
    List.not_mem_nil, or_false] at hm
  rcases hm with rfl | rfl | rfl | rfl | rfl | rfl | rfl | rfl | rfl | rfl | rfl | rfl | rfl | rfl | rfl | rfl | rfl |
    rfl | rfl | rfl | rfl | rfl | rfl | rfl | rfl | rfl | rfl | rfl | rfl | rfl | rfl | rfl | rfl | rfl
  all_goals first
    | rfl
    | exact fun _ => rfl
    | exact fun _ _ => rfl
    | exact ⟨rfl, .inl rfl⟩
    | exact ⟨rfl, .inr rfl⟩

/-- The format of an opcode encodes to it. -/
theorem formOf_encodes {op : Byte} {f : Form} (h : formOf opcodeMap op = some f) : rowEncodes op f := by
  obtain ⟨row, hm, rfl, rfl⟩ := formOf_some h
  exact opcodeMap_encodes row hm

/-- Why fetching fails: `pc` is beyond memory, an operand byte of a defined opcode is address 256, or the opcode at `pc` is
in no row. -/
theorem fetchDecode_error {s : State} {e : DecodeError} (h : fetchDecode s = .error e) :
    (255 < s.pc.toNat ∧ e = .missingByte 0) ∨
    (s.pc.toNat ≤ 255 ∧
      ((∃ k, s.pc.toNat + k = 256 ∧ e = .missingByte k ∧ codeByte 0 s ∈ definedOpcodes ∧
          codeByte 0 s ∉ [0x13#8, 0x52#8] ∧ 255 < s.pc.toNat + opOperandCount (codeByte 0 s)) ∨
       (codeByte 0 s ∉ definedOpcodes ∧ e = undefinedOpcode (codeByte 0 s)))) := by
  have hread := fetchByte_eq s
  rcases decodeFrom_error h with ⟨h0, he⟩ | ⟨op, h0, -, hrest⟩
  · refine .inl ⟨?_, he⟩
    rw [hread] at h0
    by_contra hle
    rw [if_pos (by omega)] at h0
    cases h0
  · have hpc : s.pc.toNat ≤ 255 := by
      by_contra hgt
      rw [hread, if_neg (by omega)] at h0
      cases h0
    have hop : codeByte 0 s = op := by
      rw [hread, if_pos (by omega)] at h0
      exact Option.some.inj h0
    refine .inr ⟨hpc, ?_⟩
    rw [hop]
    have beyond : ∀ k, fetchByte s k = none → 255 < s.pc.toNat + k := by
      intro k hk
      by_contra hle
      rw [hread, if_pos (by omega)] at hk
      cases hk
    rcases hrest with ⟨hf, he⟩ | ⟨f, hf, hrest⟩
    · refine .inr ⟨fun hmem => ?_, he⟩
      obtain ⟨row, hrow, heq⟩ := opcodeMap_covers _ hmem
      exact formOf_none hf row hrow heq
    · obtain ⟨row, hrow, rfl, rfl⟩ := formOf_some hf
      obtain ⟨hdef, hreads⟩ := opcodeMap_rows row hrow
      rcases hrest with ⟨hn, h1, he⟩ | ⟨hn, ⟨a, h1⟩, h2, he⟩
      · obtain ⟨hne, hcount⟩ := hreads hn
        have := beyond 1 h1
        exact .inl ⟨1, by omega, he, hdef, hne, by omega⟩
      · obtain ⟨hne, hcount⟩ := hreads (by omega)
        have := beyond 2 h2
        refine .inl ⟨2, ?_, he, hdef, hne, by omega⟩
        by_contra h256
        rw [hread, if_neg (by omega)] at h1
        cases h1

/-- A byte of those at `pc`. -/
theorem bytesAt_codeByte {s : State} {bytes : List Byte} {k : Nat} {b : Byte} (h : BytesAt s bytes)
    (hk : bytes[k]? = some b) : codeByte k s = b := by
  obtain ⟨hl, rfl⟩ := List.getElem?_eq_some_iff.mp hk
  exact (h k hl).2

/-- One instruction byte at `pc`. -/
theorem bytesAt_one {s : State} {x : Byte} (hl : s.pc.toNat ≤ 255) (hx : codeByte 0 s = x) : BytesAt s [x] := by
  intro k hk
  obtain rfl : k = 0 := by simpa using hk
  exact ⟨hl, hx⟩

/-- Two instruction bytes at `pc`. -/
theorem bytesAt_two {s : State} {x y : Byte} (hl : s.pc.toNat + 1 ≤ 255) (hx : codeByte 0 s = x)
    (hy : codeByte 1 s = y) : BytesAt s [x, y] := by
  intro k hk
  match k, hk with
  | 0, _ => exact ⟨by omega, hx⟩
  | 1, _ => exact ⟨hl, hy⟩

/-- Three instruction bytes at `pc`. -/
theorem bytesAt_three {s : State} {x y z : Byte} (hl : s.pc.toNat + 2 ≤ 255) (hx : codeByte 0 s = x)
    (hy : codeByte 1 s = y) (hz : codeByte 2 s = z) : BytesAt s [x, y, z] := by
  intro k hk
  match k, hk with
  | 0, _ => exact ⟨by omega, hx⟩
  | 1, _ => exact ⟨by omega, hy⟩
  | 2, _ => exact ⟨hl, hz⟩

/-- What a decoded instruction tells: the byte at `pc` is its opcode, and its encoding lies at `pc` (INT's operand byte,
never read, aside). -/
theorem fetchDecode_ok {s : State} {ins : Instr} (h : fetchDecode s = .ok ins) :
    s.pc.toNat ≤ 255 ∧ codeByte 0 s = ins.opcode ∧ (ins ≠ .int → BytesAt s (encode ins)) := by
  have present : ∀ {k b}, fetchByte s k = some b → s.pc.toNat + k ≤ 255 ∧ codeByte k s = b := by
    intro k b hk
    rw [fetchByte_eq] at hk
    split_ifs at hk with hl
    exact ⟨hl, Option.some.inj hk⟩
  obtain ⟨op, h0, hcase⟩ := decodeFrom_ok h
  obtain ⟨hl, hop⟩ := present h0
  refine ⟨hl, ?_⟩
  rcases hcase with ⟨rfl, rfl⟩ | hf | hf | ⟨make, a, hf, h1, rfl⟩ | ⟨make, a, b, hf, h1, h2, rfl⟩
  · exact ⟨hop, fun _ => bytesAt_one hl hop⟩
  · have he := formOf_encodes hf
    simp only [rowEncodes] at he
    exact ⟨by simp [Instr.opcode, he, hop], fun _ => he ▸ bytesAt_one hl hop⟩
  · obtain ⟨ho, he⟩ := formOf_encodes hf
    exact ⟨hop.trans ho.symm, fun hne => he.resolve_left hne ▸ bytesAt_one hl hop⟩
  · have he := formOf_encodes hf a
    obtain ⟨hl1, h1⟩ := present h1
    exact ⟨by simp [Instr.opcode, he, hop], fun _ => he ▸ bytesAt_two hl1 hop h1⟩
  · have he : encode (make a b) = [op, a, b] := by
      rcases hf with hf | hf <;> exact formOf_encodes hf a b
    obtain ⟨-, h1⟩ := present h1
    obtain ⟨hl2, h2⟩ := present h2
    exact ⟨by simp [Instr.opcode, he, hop], fun _ => he ▸ bytesAt_three hl2 hop h1 h2⟩

/-- The register bytes a decoded instruction's opcode and operand bytes name are its register operands. -/
theorem registerBytes_eq {s : State} {ins : Instr} (h : BytesAt s (encode ins)) :
    registerBytes (codeByte 0 s) (codeByte 1 s) (codeByte 2 s) = ins.regOperands := by
  cases ins
  all_goals
    rw [bytesAt_codeByte (k := 0) h rfl]
    try rw [bytesAt_codeByte (k := 1) h rfl]
    try rw [bytesAt_codeByte (k := 2) h rfl]
    simp [registerBytes, Instr.regOperands, opOperandCount]

end Sys2Proof.Machine
end

