-- ==== Sys2Proof/Laws/PerInstr.lean ====
section
/-! SUPPORT. Facts about instructions as syntax, one lemma per constructor. -/

namespace Sys2Proof.Laws.EncodedLength

/-- An instruction is 1 to 3 bytes long, one more than the operand count in its opcode (30_encoding R60, R70). -/
def Statement (i : Instr) : Prop := (encode i).length = 1 + i.operandCount ∧ (encode i).length ≤ 3

/-- The statement from the instruction's bytes: an opcode and as many bytes as its field AA says. -/
theorem of_bytes {i : Instr} {op : Byte} {rest : List Byte} (h : encode i = op :: rest) (n : Nat) (hr : rest.length = n)
    (hn : opOperandCount op = n) (hle : n ≤ 2) : Statement i := by
  simp only [Statement, Instr.operandCount, Instr.opcode, h, List.headD_cons, List.length_cons, hr, hn]
  omega

theorem nop : Statement .nop := of_bytes rfl 0 rfl (by decide) (by decide)
theorem hlt : Statement .hlt := of_bytes rfl 0 rfl (by decide) (by decide)
theorem ret : Statement .ret := of_bytes rfl 0 rfl (by decide) (by decide)
theorem iret : Statement .iret := of_bytes rfl 0 rfl (by decide) (by decide)
theorem push (r : Byte) : Statement (.push r) := of_bytes rfl 1 rfl (by decide) (by decide)
theorem pop (r : Byte) : Statement (.pop r) := of_bytes rfl 1 rfl (by decide) (by decide)
theorem prn (r : Byte) : Statement (.prn r) := of_bytes rfl 1 rfl (by decide) (by decide)
theorem pra (r : Byte) : Statement (.pra r) := of_bytes rfl 1 rfl (by decide) (by decide)
theorem call (r : Byte) : Statement (.call r) := of_bytes rfl 1 rfl (by decide) (by decide)
theorem int : Statement .int := of_bytes rfl 1 rfl (by decide) (by decide)
theorem jmp (r : Byte) : Statement (.jmp r) := of_bytes rfl 1 rfl (by decide) (by decide)
theorem jeq (r : Byte) : Statement (.jeq r) := of_bytes rfl 1 rfl (by decide) (by decide)
theorem jne (r : Byte) : Statement (.jne r) := of_bytes rfl 1 rfl (by decide) (by decide)
theorem jgt (r : Byte) : Statement (.jgt r) := of_bytes rfl 1 rfl (by decide) (by decide)
theorem jlt (r : Byte) : Statement (.jlt r) := of_bytes rfl 1 rfl (by decide) (by decide)
theorem jle (r : Byte) : Statement (.jle r) := of_bytes rfl 1 rfl (by decide) (by decide)
theorem jge (r : Byte) : Statement (.jge r) := of_bytes rfl 1 rfl (by decide) (by decide)
theorem inc (r : Byte) : Statement (.inc r) := of_bytes rfl 1 rfl (by decide) (by decide)
theorem dec (r : Byte) : Statement (.dec r) := of_bytes rfl 1 rfl (by decide) (by decide)
theorem not (r : Byte) : Statement (.not r) := of_bytes rfl 1 rfl (by decide) (by decide)
theorem ldi (r imm : Byte) : Statement (.ldi r imm) := of_bytes rfl 2 rfl (by decide) (by decide)
theorem ld (ra rb : Byte) : Statement (.ld ra rb) := of_bytes rfl 2 rfl (by decide) (by decide)
theorem st (ra rb : Byte) : Statement (.st ra rb) := of_bytes rfl 2 rfl (by decide) (by decide)
theorem add (ra rb : Byte) : Statement (.add ra rb) := of_bytes rfl 2 rfl (by decide) (by decide)
theorem sub (ra rb : Byte) : Statement (.sub ra rb) := of_bytes rfl 2 rfl (by decide) (by decide)
theorem mul (ra rb : Byte) : Statement (.mul ra rb) := of_bytes rfl 2 rfl (by decide) (by decide)
theorem div (ra rb : Byte) : Statement (.div ra rb) := of_bytes rfl 2 rfl (by decide) (by decide)
theorem mod (ra rb : Byte) : Statement (.mod ra rb) := of_bytes rfl 2 rfl (by decide) (by decide)
theorem cmp (ra rb : Byte) : Statement (.cmp ra rb) := of_bytes rfl 2 rfl (by decide) (by decide)
theorem and (ra rb : Byte) : Statement (.and ra rb) := of_bytes rfl 2 rfl (by decide) (by decide)
theorem or (ra rb : Byte) : Statement (.or ra rb) := of_bytes rfl 2 rfl (by decide) (by decide)
theorem xor (ra rb : Byte) : Statement (.xor ra rb) := of_bytes rfl 2 rfl (by decide) (by decide)
theorem shl (ra rb : Byte) : Statement (.shl ra rb) := of_bytes rfl 2 rfl (by decide) (by decide)
theorem shr (ra rb : Byte) : Statement (.shr ra rb) := of_bytes rfl 2 rfl (by decide) (by decide)

end Sys2Proof.Laws.EncodedLength
end

