-- ==== Sys2Proof/Tests/Slice0.lean ====
section
/-! SUPPORT. Tests. Expected results are those of the rules' examples and of 95_test_vectors, whose numbers (A1, M9, J4,
E7, W1) are named; nothing here is the model's own answer copied back. Then a witness for the hypotheses of every
statement that has hypotheses. -/

namespace Sys2Proof.Tests

open Sys2Proof.Machine

/-! ### WellFormed refuses each ill-formed operand -/

theorem test_wf_accepts : WellFormed (.add 0 7) ∧ WellFormed (.ldi 7 0xFF) ∧ WellFormed (.pra 0x99) ∧ WellFormed .int := by decide
theorem test_wf_refuses_one_register :
    ¬WellFormed (.push 8) ∧ ¬WellFormed (.pop 8) ∧ ¬WellFormed (.prn 8) ∧ ¬WellFormed (.call 8) ∧ ¬WellFormed (.jmp 8) ∧
    ¬WellFormed (.jeq 8) ∧ ¬WellFormed (.jne 8) ∧ ¬WellFormed (.jgt 8) ∧ ¬WellFormed (.jlt 8) ∧ ¬WellFormed (.jle 8) ∧
    ¬WellFormed (.jge 8) ∧ ¬WellFormed (.inc 8) ∧ ¬WellFormed (.dec 8) ∧ ¬WellFormed (.not 255) ∧ ¬WellFormed (.ldi 8 1) := by
  decide
theorem test_wf_refuses_first_register :
    ¬WellFormed (.ld 8 0) ∧ ¬WellFormed (.st 8 0) ∧ ¬WellFormed (.add 8 0) ∧ ¬WellFormed (.sub 8 0) ∧ ¬WellFormed (.mul 8 0) ∧
    ¬WellFormed (.div 8 0) ∧ ¬WellFormed (.mod 8 0) ∧ ¬WellFormed (.cmp 8 0) ∧ ¬WellFormed (.and 8 0) ∧ ¬WellFormed (.or 8 0) ∧
    ¬WellFormed (.xor 8 0) ∧ ¬WellFormed (.shl 8 0) ∧ ¬WellFormed (.shr 8 0) := by decide
theorem test_wf_refuses_second_register :
    ¬WellFormed (.ld 0 8) ∧ ¬WellFormed (.st 0 8) ∧ ¬WellFormed (.add 0 8) ∧ ¬WellFormed (.sub 0 8) ∧ ¬WellFormed (.mul 0 8) ∧
    ¬WellFormed (.div 0 8) ∧ ¬WellFormed (.mod 0 8) ∧ ¬WellFormed (.cmp 0 8) ∧ ¬WellFormed (.and 0 8) ∧ ¬WellFormed (.or 0 8) ∧
    ¬WellFormed (.xor 0 8) ∧ ¬WellFormed (.shl 0 8) ∧ ¬WellFormed (.shr 0 9) := by decide

/-! ### Decoding words written out bit by bit from 30_encoding R64 and R67 -/

theorem test_decode_no_operand :
    decode [0b00000000#8] = .ok .nop ∧
    decode [0b00000001#8] = .ok .hlt ∧
    decode [0b00010001#8] = .ok .ret ∧
    decode [0b00010011#8] = .ok .iret := by
  decide
theorem test_decode_one_operand :
    decode [0b01000101#8, 0b00000101#8] = .ok (.push 5) ∧
    decode [0b01000110#8, 0b00000101#8] = .ok (.pop 5) ∧
    decode [0b01000111#8, 0b00000101#8] = .ok (.prn 5) ∧
    decode [0b01001000#8, 0b00000101#8] = .ok (.pra 5) ∧
    decode [0b01010000#8, 0b00000101#8] = .ok (.call 5) ∧
    decode [0b01010010#8, 0b00000011#8] = .ok .int ∧
    decode [0b01010100#8, 0b00000101#8] = .ok (.jmp 5) ∧
    decode [0b01010101#8, 0b00000101#8] = .ok (.jeq 5) ∧
    decode [0b01010110#8, 0b00000101#8] = .ok (.jne 5) ∧
    decode [0b01010111#8, 0b00000101#8] = .ok (.jgt 5) ∧
    decode [0b01011000#8, 0b00000101#8] = .ok (.jlt 5) ∧
    decode [0b01011001#8, 0b00000101#8] = .ok (.jle 5) ∧
    decode [0b01011010#8, 0b00000101#8] = .ok (.jge 5) ∧
    decode [0b01100101#8, 0b00000101#8] = .ok (.inc 5) ∧
    decode [0b01100110#8, 0b00000101#8] = .ok (.dec 5) ∧
    decode [0b01101001#8, 0b00000101#8] = .ok (.not 5) := by
  decide
theorem test_decode_two_operands :
    decode [0b10000010#8, 0b00000110#8, 0b11000011#8] = .ok (.ldi 6 195) ∧
    decode [0b10000011#8, 0b00000010#8, 0b00000111#8] = .ok (.ld 2 7) ∧
    decode [0b10000100#8, 0b00000010#8, 0b00000111#8] = .ok (.st 2 7) ∧
    decode [0b10100000#8, 0b00000010#8, 0b00000111#8] = .ok (.add 2 7) ∧
    decode [0b10100001#8, 0b00000010#8, 0b00000111#8] = .ok (.sub 2 7) ∧
    decode [0b10100010#8, 0b00000010#8, 0b00000111#8] = .ok (.mul 2 7) ∧
    decode [0b10100011#8, 0b00000010#8, 0b00000111#8] = .ok (.div 2 7) ∧
    decode [0b10100100#8, 0b00000010#8, 0b00000111#8] = .ok (.mod 2 7) ∧
    decode [0b10100111#8, 0b00000010#8, 0b00000111#8] = .ok (.cmp 2 7) ∧
    decode [0b10101000#8, 0b00000010#8, 0b00000111#8] = .ok (.and 2 7) ∧
    decode [0b10101010#8, 0b00000010#8, 0b00000111#8] = .ok (.or 2 7) ∧
    decode [0b10101011#8, 0b00000010#8, 0b00000111#8] = .ok (.xor 2 7) ∧
    decode [0b10101100#8, 0b00000010#8, 0b00000111#8] = .ok (.shl 2 7) ∧
    decode [0b10101101#8, 0b00000010#8, 0b00000111#8] = .ok (.shr 2 7) := by
  decide

/-- E8, E9, E10, E11: undefined opcodes, by bit 5, with no operand byte read. -/
theorem test_decode_undefined :
    decode [0xA5#8] = .error (.unsupportedOperation 0xA5) ∧ decode [0xE0#8] = .error (.unsupportedOperation 0xE0) ∧
    decode [0x40#8] = .error (.illegalInstruction 0x40) ∧ decode [0xC0#8] = .error (.illegalInstruction 0xC0) := by decide
theorem test_decode_missing_bytes :
    decode [] = .error (.missingByte 0) ∧ decode [0x45#8] = .error (.missingByte 1) ∧
    decode [0x82#8] = .error (.missingByte 1) ∧ decode [0x82#8, 0#8] = .error (.missingByte 2) := by decide
/-- INT needs no operand byte to exist (43_control_flow R179). -/
theorem test_decode_int_alone : decode [0x52#8] = .ok .int := by decide
theorem test_decodeTableWord :
    decodeTableWord 24 0x080082 = some (.ldi 0 8) ∧ decodeTableWord 8 0x82 = some (.ldi 0 0) ∧
    decodeTableWord 8 0xA5 = none := by decide
theorem test_encode_ldi : encode (.ldi 0 8) = [0b10000010#8, 0b00000000#8, 0b00001000#8] := by decide
theorem test_decodeOpcode_call : decodeOpcode 0x50#8 = ⟨0x50#8, 1, false, true⟩ := by decide
/-- 30_encoding R66. -/
theorem test_opIdent : opIdent 0xA7#8 = 7 ∧ opIdent 0xAD#8 = 13 ∧ opIdent 0x69#8 = 9 := by decide
/-- 30_encoding R74: the source's spellings. -/
theorem test_assembly :
    assembly (.ldi 0 8) = "LDI R0,8" ∧ assembly (.prn 0) = "PRN R0" ∧ assembly .hlt = "HLT" ∧
    assembly (.mul 0 1) = "MUL R0,R1" := by decide

/-! ### One step on a small state -/

/-- The reset machine with bytes placed from an address, and `pc` there. -/
def at_ (a : Nat) (bytes : List Byte) : State :=
  { State.reset with pc := BitVec.ofNat 9 a, memory := Memory.setBytes [] a bytes }

/-- Registers set from left to right. -/
def withRegsSet (rs : List (Fin 8 × Byte)) (s : State) : State := rs.foldl (fun s r => s.setReg r.1 r.2) s

/-- The next state of an outcome. -/
def next? : Result → Option State
  | .next t => some t
  | _ => none

/-- After one step: a register, `pc`. -/
def regPc (i : Fin 8) (s : State) : Option (Nat × Nat) :=
  (next? (step s)).map fun t => ((readReg i t).toNat, t.pc.toNat)

/-- After one step: a memory byte, SP, `pc`. -/
def byteSpPc (a : Nat) (s : State) : Option (Nat × Nat × Nat) :=
  (next? (step s)).map fun t => ((readByte a t).toNat, (readSp t).toNat, t.pc.toNat)

/-- After one step: the flags, and whether the registers are as before. -/
def flagsAfter (s : State) : Option (Flags × Bool) :=
  (next? (step s)).map fun t => (t.flags, decide (t.regs = s.regs))

/-- After one step: the output, `pc`. -/
def outPc (s : State) : Option (List Byte × Nat) :=
  (next? (step s)).map fun t => (t.output, t.pc.toNat)

/-- After one step: the run state, the record (kind, space, pc, detail), and whether the rest is as before. -/
def faultAfter (s : State) : Option (RunState × Nat × Nat × Nat × Nat × Bool) :=
  (next? (step s)).map fun t =>
    (t.runState, t.faultRecord.kind.toNat, t.faultRecord.oobSpace.toNat, t.faultRecord.faultPc.toNat,
      t.faultRecord.detail.toNat, decide ({ t with runState := s.runState, faultRecord := s.faultRecord } = s))

/-- Two registers. -/
def x01 (x y : Byte) (s : State) : State := withRegsSet [(0, x), (1, y)] s

/-- Flags set. -/
def fl (e g l : Bool) (s : State) : State := s.setFlags ⟨e, g, l⟩

theorem test_add_A1 : regPc 0 (x01 2 3 (at_ 0 [0xA0, 0, 1])) = some (5, 3) := by decide
theorem test_add_A2 : regPc 0 (x01 200 100 (at_ 0 [0xA0, 0, 1])) = some (44, 3) := by decide
theorem test_sub_A5 : regPc 0 (x01 10 4 (at_ 0 [0xA1, 0, 1])) = some (6, 3) := by decide
theorem test_sub_A6 : regPc 0 (x01 3 5 (at_ 0 [0xA1, 0, 1])) = some (254, 3) := by decide
theorem test_mul_A8 : regPc 0 (x01 16 16 (at_ 0 [0xA2, 0, 1])) = some (0, 3) := by decide
theorem test_mul_A9 : regPc 0 (x01 255 255 (at_ 0 [0xA2, 0, 1])) = some (1, 3) := by decide
theorem test_div_A10 : regPc 0 (x01 7 2 (at_ 0 [0xA3, 0, 1])) = some (3, 3) := by decide
theorem test_div_A14 : faultAfter (x01 9 0 (at_ 0 [0xA3, 0, 1])) = some (.faulted, 2, 0, 0, 1, true) := by decide
theorem test_mod_A16 : regPc 2 (withRegsSet [(2, 17), (3, 5)] (at_ 0 [0xA4, 2, 3])) = some (2, 3) := by decide
theorem test_mod_A19 : faultAfter (x01 9 0 (at_ 0 [0xA4, 0, 1])) = some (.faulted, 2, 0, 0, 1, true) := by decide
theorem test_inc_A21 : regPc 4 (withRegsSet [(4, 255)] (at_ 0 [0x65, 4])) = some (0, 2) := by decide
theorem test_inc_A22 : regPc 7 (at_ 0 [0x65, 7]) = some (0xF5, 2) := by decide
theorem test_dec_A23 : regPc 4 (withRegsSet [(4, 9)] (at_ 0 [0x66, 4])) = some (8, 2) := by decide
theorem test_dec_A24 : regPc 4 (at_ 0 [0x66, 4]) = some (255, 2) := by decide
theorem test_and_A25 : regPc 0 (x01 0xCC 0xAA (at_ 0 [0xA8, 0, 1])) = some (136, 3) := by decide
theorem test_or_A26 : regPc 0 (x01 0xCC 0xAA (at_ 0 [0xAA, 0, 1])) = some (238, 3) := by decide
theorem test_xor_A27 : regPc 0 (x01 0xCC 0xAA (at_ 0 [0xAB, 0, 1])) = some (102, 3) := by decide
theorem test_not_A29 : regPc 0 (withRegsSet [(0, 0x0F)] (at_ 0 [0x69, 0])) = some (0xF0, 2) := by decide
theorem test_shl_A31 : regPc 0 (x01 5 2 (at_ 0 [0xAC, 0, 1])) = some (20, 3) := by decide
theorem test_shl_A34 : regPc 0 (x01 0xFF 200 (at_ 0 [0xAC, 0, 1])) = some (0, 3) := by decide
theorem test_shr_A37 : regPc 0 (x01 0x80 7 (at_ 0 [0xAD, 0, 1])) = some (1, 3) := by decide
theorem test_shr_A38 : regPc 0 (x01 0xFF 1 (at_ 0 [0xAD, 0, 1])) = some (127, 3) := by decide
theorem test_cmp_A40 : flagsAfter (x01 5 5 (at_ 0 [0xA7, 0, 1])) = some (⟨true, false, false⟩, true) := by decide
theorem test_cmp_A42 : flagsAfter (x01 0x80 1 (at_ 0 [0xA7, 0, 1])) = some (⟨false, true, false⟩, true) := by decide
theorem test_nop_M1 : next? (step (at_ 0 [0x00])) = some { at_ 0 [0x00] with pc := 1 } := by decide
theorem test_ldi_M2 : regPc 0 (at_ 0 [0x82, 0, 8]) = some (8, 3) := by decide
theorem test_ldi_M3 : regPc 7 (at_ 0 [0x82, 7, 0]) = some (0, 3) := by decide
theorem test_ld_M4 : regPc 0 (x01 0 0x10 ((at_ 0 [0x83, 0, 1]).setByte 0x10 42)) = some (42, 3) := by decide
theorem test_ld_M6 : regPc 0 (at_ 0 [0x83, 0, 0]) = some (0x83, 3) := by decide
theorem test_st_M7 : byteSpPc 0x20 (x01 0x20 7 (at_ 0 [0x84, 0, 1])) = some (7, 0xF4, 3) := by decide
theorem test_st_M8 : byteSpPc 0x20 (x01 0x20 7 (at_ 0 [0x84, 0, 0])) = some (0x20, 0xF4, 3) := by decide
theorem test_push_M10 : byteSpPc 255 (withRegsSet [(7, 0), (0, 9)] (at_ 0 [0x45, 0])) = some (9, 255, 2) := by decide
theorem test_push_M11 : byteSpPc 0xF3 (at_ 0 [0x45, 7]) = some (0xF3, 0xF3, 2) := by decide
theorem test_pop_M13 : regPc 7 ((at_ 0 [0x46, 7]).setByte 0xF4 0x20) = some (0x21, 2) := by decide
theorem test_pop_M14 :
    (regPc 0 (withRegsSet [(7, 255)] ((at_ 0 [0x46, 0]).setByte 255 3)), regPc 7 (withRegsSet [(7, 255)] ((at_ 0 [0x46, 0]).setByte 255 3))) = (some (3, 2), some (0, 2)) := by
  decide
theorem test_prn_M17 : outPc (withRegsSet [(5, 255)] (at_ 0 [0x47, 5])) = some ([255], 2) := by decide
theorem test_prn_appends : outPc { at_ 0 [0x47, 7] with output := [8, 9] } = some ([8, 9, 0xF4], 2) := by decide
theorem test_pra_M19 : next? (step (at_ 10 [0x48, 0x99])) = some { at_ 10 [0x48, 0x99] with pc := 12 } := by decide
theorem test_call_J1 : byteSpPc 0xF3 (withRegsSet [(1, 0x40)] (at_ 0x10 [0x50, 1])) = some (0x12, 0xF3, 0x40) := by decide
theorem test_call_J4 : faultAfter (at_ 254 [0x50, 1]) = some (.faulted, 1, 0, 254, 256, true) := by decide
theorem test_call_R7_J3 : byteSpPc 0xF3 (at_ 0 [0x50, 7]) = some (2, 0xF3, 0xF3) := by decide
theorem test_ret_J5 :
    byteSpPc 0xF3 (withRegsSet [(7, 0xF3)] ((at_ 8 [0x11]).setByte 0xF3 0x12)) = some (0x12, 0xF4, 0x12) := by
  decide
theorem test_jmp_J7 : regPc 2 (withRegsSet [(2, 0x30)] (at_ 8 [0x54, 2])) = some (0x30, 0x30) := by decide
theorem test_jeq_J8 : regPc 3 (fl true false false (withRegsSet [(3, 0x20)] (at_ 8 [0x55, 3]))) = some (0x20, 0x20) := by decide
theorem test_jeq_J9 : regPc 3 (fl false true false (withRegsSet [(3, 0x20)] (at_ 8 [0x55, 3]))) = some (0x20, 0x0A) := by decide
theorem test_jne_J11 :
    regPc 3 (fl false false true (withRegsSet [(3, 0x20)] (at_ 8 [0x56, 3]))) = some (0x20, 0x20) := by
  decide
theorem test_jne_J12 :
    regPc 3 (fl true false false (withRegsSet [(3, 0x20)] (at_ 8 [0x56, 3]))) = some (0x20, 0x0A) := by
  decide
theorem test_jgt_J14 :
    regPc 3 (fl false true false (withRegsSet [(3, 0x20)] (at_ 8 [0x57, 3]))) = some (0x20, 0x20) := by
  decide
theorem test_jgt_J15 :
    regPc 3 (fl true false false (withRegsSet [(3, 0x20)] (at_ 8 [0x57, 3]))) = some (0x20, 0x0A) := by
  decide
theorem test_jlt_J16 :
    regPc 3 (fl false false true (withRegsSet [(3, 0x20)] (at_ 8 [0x58, 3]))) = some (0x20, 0x20) := by
  decide
theorem test_jlt_J17 :
    regPc 3 (fl false true false (withRegsSet [(3, 0x20)] (at_ 8 [0x58, 3]))) = some (0x20, 0x0A) := by
  decide
theorem test_jle_J18 :
    regPc 3 (fl true false false (withRegsSet [(3, 0x20)] (at_ 8 [0x59, 3]))) = some (0x20, 0x20) := by
  decide
theorem test_jle_J21 :
    regPc 3 (fl false false false (withRegsSet [(3, 0x20)] (at_ 8 [0x59, 3]))) = some (0x20, 0x0A) := by
  decide
theorem test_jge_J22 :
    regPc 3 (fl false true false (withRegsSet [(3, 0x20)] (at_ 8 [0x5A, 3]))) = some (0x20, 0x20) := by
  decide
theorem test_jge_J24 :
    regPc 3 (fl false false true (withRegsSet [(3, 0x20)] (at_ 8 [0x5A, 3]))) = some (0x20, 0x0A) := by
  decide
theorem test_int_J25 : faultAfter (at_ 8 [0x52, 0]) = some (.faulted, 4, 0, 8, 0x52, true) := by decide
theorem test_iret_J26 : faultAfter (at_ 8 [0x13]) = some (.faulted, 4, 0, 8, 0x13, true) := by decide
theorem test_jump_not_taken_bad_register_J27 :
    faultAfter (fl false true false (at_ 8 [0x55, 9])) = some (.faulted, 1, 1, 8, 9, true) := by
  decide
theorem test_hlt_E2 : next? (step (at_ 255 [0x01])) = some { at_ 255 [0x01] with runState := .halted } := by decide
theorem test_prn_at_254_E4 : outPc (at_ 254 [0x47, 0]) = some ([0], 256) := by decide
theorem test_fetch_beyond_memory_E4 : faultAfter (at_ 256 []) = some (.faulted, 1, 0, 256, 256, true) := by decide
theorem test_operand_beyond_memory_E5 : faultAfter (at_ 254 [0x82, 0]) = some (.faulted, 1, 0, 254, 256, true) := by decide
theorem test_undefined_at_255_E7 : faultAfter (at_ 255 [0xA5]) = some (.faulted, 3, 0, 255, 0xA5, true) := by decide
theorem test_illegal_E10 : faultAfter (at_ 0 [0x40]) = some (.faulted, 4, 0, 0, 0x40, true) := by decide
theorem test_register_before_divisor_E13 : faultAfter (at_ 0 [0xA3, 9, 1]) = some (.faulted, 1, 1, 0, 9, true) := by decide
theorem test_first_register_first_E14 : faultAfter (at_ 0 [0xA0, 8, 9]) = some (.faulted, 1, 1, 0, 8, true) := by decide

/-! ### The other values of the parameters (92_eei_decisions D7, D8, D14, D21) -/

theorem test_skip_advances :
    next? (illegalOpcode .skip 0x40 (at_ 8 [0x40])) = some { at_ 8 [0x40] with pc := 10 } := by decide
theorem test_hang_changes_nothing : next? (stubJump .hang true 3 (at_ 8 [0x57, 3])) = some (at_ 8 [0x57, 3]) := by decide
theorem test_r7_operand_fault :
    stackOperand .fault 7 = .error (.outOfBoundsRegister 7) ∧ stackOperand .fault 6 = .ok 6 := by
  exact ⟨rfl, rfl⟩
theorem test_pc_after_hlt : (halt .afterHlt (at_ 8 [0x01])).pc = 9 ∧ (halt .afterHlt (at_ 8 [0x01])).runState = .halted := by
  decide

/-! ### Memory, reset, the host's side -/

theorem test_memory_canonical :
    Memory.set (Memory.set [] 5 1) 3 2 = [(3, 2), (5, 1)] ∧ Memory.set [(3, 2), (5, 1)] 3 0 = [(5, 1)] ∧
    Memory.set [(3, 2), (5, 1)] 5 7 = [(3, 2), (5, 7)] ∧ Memory.wf [(3, 2), (5, 1)] = true ∧
    Memory.wf [(5, 1), (3, 2)] = false ∧ Memory.wf [(3, 0)] = false ∧ Memory.wf [(256, 1)] = false := by decide
theorem test_flags_byte : Flags.toByte ⟨true, false, false⟩ = 1 ∧ Flags.toByte ⟨false, true, false⟩ = 2 ∧
    Flags.toByte ⟨false, false, true⟩ = 4 := by decide
theorem test_mem_out_of_bounds : memRead 256 State.reset = .error (.outOfBoundsMemory 256) ∧
    memWrite 256 1 State.reset = .error (.outOfBoundsMemory 256) := ⟨rfl, rfl⟩
/-- 70_reset_and_hazards R231: SP. -/
theorem test_reset_sp : readSp State.reset = 0xF4 ∧ readReg 0 State.reset = 0 := by decide
theorem test_reset_leaves_faulted :
    ({ at_ 9 [0x52] with runState := .faulted } : State).assertReset.release = { at_ 0 [] with memory := (at_ 9 [0x52]).memory } := by
  decide
/-- W8 and 30_encoding R76. -/
theorem test_program_file :
    parseProgram ["10000010 # LDI R0,8".toList, "00000000".toList, "".toList, "# comment".toList, "00001000".toList] =
      some [0x82, 0, 8] ∧ parseLine "1000001".toList = none ∧ parseLine "10000012".toList = none := by decide
/-- The reset machine with a memory, held in reset. -/
def held (m : Memory) : HeldInReset := ({ State.reset with memory := m } : State).assertReset

theorem test_load_file : (held [(9, 9)]).loadFile ["00000001".toList] = some (held [(0, 1)]) := by decide
theorem test_host_write : (held []).hostWrite 4 7 = some (held [(4, 7)]) ∧ (held []).hostWrite 256 7 = none := by decide
/-- 00_scope R10: output and status are read while reset is held too (log 21). -/
theorem test_held_outputs :
    let h := ({ at_ 0 [] with runState := .faulted, faultRecord := ⟨2, 0, 3, 1⟩, output := [8] } : State).assertReset
    h.statusOutput = (.faulted, some ⟨2, 0, 3, 1⟩) ∧ h.printedText = "8\n" ∧ h.release.output = [] := by decide
/-- 60_exceptions R217, 00_scope R9. -/
theorem test_status :
    exitStatus (at_ 0 []) = none ∧ exitStatus { at_ 0 [] with runState := .halted } = some .normal ∧
    exitStatus { at_ 0 [] with runState := .faulted } = some .failure ∧
    statusOutput { at_ 0 [] with runState := .halted } = (.halted, none) ∧
    statusOutput { at_ 0 [] with runState := .faulted, faultRecord := ⟨2, 0, 3, 1⟩ } = (.faulted, some ⟨2, 0, 3, 1⟩) := by decide
theorem test_run_result_running : runResult (at_ 0 []) = none := by decide
theorem test_printed_text : printedText { at_ 0 [] with output := [8, 255] } = "8\n255\n" := by decide
/-- E16: no step after a fault, nor after HLT. -/
theorem test_no_step_when_stopped :
    next? (step { at_ 0 [] with runState := .faulted }) = none ∧ next? (step { at_ 0 [] with runState := .halted }) = none := by
  decide
theorem test_withFetchWord :
    next? (step (State.reset.withFetchWord 24 0x080082)) =
      some { (State.reset.withFetchWord 24 0x080082).setReg 0 8 with pc := 3 } := by decide

/-! ### Witnesses: a state and operands that meet the hypotheses of each statement -/

/-- Bytes placed in memory are there. -/
theorem bytesAt_ldi : BytesAt (at_ 0 [0x82, 3, 255, 0x47, 3]) [0x82#8, regByte 3, 255, 0x47#8, regByte 3] := by
  unfold BytesAt
  decide

/-- The bytes of an ADD at the top of memory are there. -/
theorem bytesAt_add : BytesAt (at_ 253 [0xA0, 0, 1]) [0xA0#8, 0, 1] := by
  unfold BytesAt
  decide

theorem witness_LoadPlacesProgramFromZero :
    (List.replicate 256 (1 : Byte)).length ≤ 256 ∧ 256 < (List.replicate 257 (1 : Byte)).length :=
  ⟨Nat.le_of_eq List.length_replicate, Nat.lt_of_lt_of_eq (by omega : 256 < 257) List.length_replicate.symm⟩
theorem witness_FirstInstructionIsAtAddressZero :
    (held []).load (encode (.ldi 0 8) ++ [0x01]) = some (held [(0, 0x82), (2, 8), (3, 1)]) := by decide
theorem witness_InvHoldsAtReset : Memory.wf ({ State.reset with memory := [(3, 2)] } : State).memory = true := by decide

/-- The reset machine, and the reset machine with a loaded program, meet the invariant. -/
theorem inv_at_ldi : Inv (at_ 0 [0x82, 0, 8]) where
  memory_canonical := by decide
  pc_range := by decide
  flags_legal := by simp [Flags.legal, at_]
  halted_at_hlt := by intro h; simp [at_] at h
  record_legal := by intro h; simp [at_] at h

theorem witness_StepKeepsInv : Inv (at_ 0 [0x82, 0, 8]) ∧ (next? (step (at_ 0 [0x82, 0, 8]))).isSome = true :=
  ⟨inv_at_ldi, by decide⟩

/-- A fault keeps the invariant's hypotheses too: the step of a DIV by zero. -/
theorem witness_StepKeepsInv_fault :
    (next? (step (x01 9 0 (at_ 0 [0xA3, 0, 1])))).map (fun t => t.runState) = some .faulted := by decide
theorem witness_CanonicalMemoriesAreEqualIfTheyReadEqual :
    Memory.wf [(3, 2), (5, 1)] = true ∧ ∀ a, Memory.get [(3, 2), (5, 1)] a = Memory.get [(3, 2), (5, 1)] a :=
  ⟨by decide, fun _ => rfl⟩
theorem witness_DecodeAndEncodeAgree :
    decode [0xA0#8, 0, 1, 0x99] = .ok (.add 0 1) ∧ Instr.add 0 1 ≠ .int ∧ decode [0x52#8, 0x99] = .ok .int := by decide
theorem witness_StepRunsTheDecodedInstruction :
    (at_ 253 [0xA0, 0, 1]).runState = .running ∧ BytesAt (at_ 253 [0xA0, 0, 1]) [0xA0#8, 0, 1] ∧
    decode [0xA0#8, 0, 1] = .ok (.add 0 1) := ⟨rfl, bytesAt_add, by decide⟩
theorem witness_EveryRunningStateSteps : State.reset.runState = .running := rfl
theorem witness_StoppedMachineTakesNoStepUntilReset :
    ({ State.reset with runState := .halted } : State).runState ≠ .running ∧
    ({ State.reset with runState := .faulted } : State).runState ≠ .running := by decide
theorem witness_OnlyTheHaltOpcodeHalts :
    (next? (step (at_ 255 [0x01]))).map (fun t => t.runState) = some .halted ∧
    (next? (step (at_ 256 []))).map (fun t => t.runState) = some .faulted := by decide
theorem witness_GenericAdvancePastTheInstruction :
    (next? (exec (.add 0 1) (at_ 253 [0xA0, 0, 1]))).map (fun t => t.runState) = some .running ∧
    opSetsPc (Instr.add 0 1).opcode = false ∧
    (at_ 253 [0xA0, 0, 1]).pc.toNat + opOperandCount (Instr.add 0 1).opcode ≤ 255 := by decide
theorem witness_UndefinedOpcodesFaultByBitFive :
    opIsAlu (readByte 255 (at_ 255 [0xA5])) = true ∧ readByte 255 (at_ 255 [0xA5]) ∉ aluOpcodes ∧
    opIsAlu (readByte 255 (at_ 255 [0x02])) = false ∧ readByte 255 (at_ 255 [0x02]) ∉ controlOpcodes ++ transferOpcodes ∧
    (at_ 255 [0xA5]).pc.toNat ≤ 255 := by decide
theorem witness_FetchBeyondMemoryFaults :
    255 < (at_ 256 []).pc.toNat ∧ (at_ 255 [0x45]).pc.toNat ≤ 255 ∧ readByte 255 (at_ 255 [0x45]) ∈ definedOpcodes ∧
    255 < (at_ 255 [0x45]).pc.toNat + opOperandCount (readByte 255 (at_ 255 [0x45])) ∧
    readByte 254 (at_ 254 [0x82, 0]) ∈ definedOpcodes ∧
    255 < (at_ 254 [0x82, 0]).pc.toNat + opOperandCount (readByte 254 (at_ 254 [0x82, 0])) := by decide
theorem witness_BadRegisterOperandFaults :
    (Instr.div 9 1).regOperands.find? (fun b => decide (7 < b.toNat)) = some 9 ∧
    (Instr.add 0 8).regOperands.find? (fun b => decide (7 < b.toNat)) = some 8 ∧
    (Instr.jeq 255).regOperands.find? (fun b => decide (7 < b.toNat)) = some 255 := by decide
theorem witness_FaultsArePrecise :
    (next? (step (at_ 254 [0x50, 1]))).map (fun t => t.runState) = some .faulted := by decide
theorem witness_FaultRecordIsNotRead :
    (next? (step (at_ 0 [0x00]))).isSome = true ∧ (next? (step (at_ 0 [0x13]))).isSome = true := by decide
theorem witness_OnlyCmpWritesFlags :
    (next? (exec (.add 0 1) State.reset)).isSome = true ∧ (∀ a b, Instr.add 0 1 ≠ .cmp a b) ∧
    (next? (exec (.cmp (regByte 0) (regByte 1)) State.reset)).isSome = true := by
  refine ⟨by decide, by simp, by decide⟩
theorem witness_OnlyStPushCallWriteMemory :
    (next? (exec (.pop 0) State.reset)).isSome = true ∧ (∀ a b, Instr.pop 0 ≠ .st a b) ∧ (∀ r, Instr.pop 0 ≠ .push r) ∧
    ∀ r, Instr.pop 0 ≠ .call r := by
  refine ⟨by decide, by simp, by simp, by simp⟩
theorem witness_OnlyPrnProducesOutput :
    (next? (exec (.pra 0) State.reset)).isSome = true ∧ ∀ r, Instr.pra 0 ≠ .prn r := ⟨by decide, by simp⟩
theorem witness_SpChangesOnlyByStackOrByName :
    (next? (exec (.ld 6 5) State.reset)).isSome = true ∧ regByte 7 ∉ (Instr.ld 6 5).regOperands := by decide
theorem witness_DivModDivideOrFault : readReg 7 State.reset ≠ 0#8 ∧ readReg 0 State.reset = 0#8 := by decide
theorem witness_DivideByZeroIsTheOnlyAluFault :
    readReg 1 State.reset = 0#8 ∧ (Instr.div 0 1).opcode ∈ aluOpcodes ∧ WellFormed (.div 0 1) ∧
    (next? (exec (.div 0 1) State.reset)).map (fun t => t.runState) = some .faulted := by decide
theorem witness_ShiftsByTheWholeRegister : 8 ≤ (readReg 0 (x01 8 255 State.reset)).toNat ∧
    8 ≤ (readReg 1 (x01 8 255 State.reset)).toNat := by decide
theorem witness_PushThenPopRestores :
    (next? (exec (.push (regByte 0)) State.reset)).isSome = true ∧ (0 : Fin 8) ≠ 7 ∧ (6 : Fin 8) ≠ 7 := by decide
theorem witness_LdiThenPrnPrintsTheValue :
    (at_ 0 [0x82, 3, 255, 0x47, 3]).runState = .running ∧
    BytesAt (at_ 0 [0x82, 3, 255, 0x47, 3]) [0x82#8, regByte 3, 255, 0x47#8, regByte 3] := ⟨rfl, bytesAt_ldi⟩
/-- P4 of 95_test_vectors: ST over the next instruction with the HLT byte. -/
theorem witness_StoreIsSeenByTheNextFetch :
    (next? (exec (.st (regByte 0) (regByte 1)) (x01 3 1 (at_ 0 [0x84, 0, 1])))).map (fun t => t.pc.toNat) = some 3 ∧
    (readReg 0 (x01 3 1 (at_ 0 [0x84, 0, 1]))).toNat = 3 ∧
    decode [readReg 1 (x01 3 1 (at_ 0 [0x84, 0, 1]))] = .ok .hlt := by decide
theorem witness_CallPushesReturnAddressAndJumps : (at_ 253 []).pc.toNat ≤ 253 ∧ (at_ 254 []).pc.toNat = 254 := by decide
theorem witness_RetReturnsPastTheCall :
    (at_ 253 []).pc.toNat ≤ 253 ∧ (next? (exec (.call (regByte 1)) (at_ 253 []))).isSome = true := by decide
theorem witness_JeqJneReadTheEqualFlag :
    (fl true false false State.reset).flags.e = true ∧ State.reset.flags.e = false := by decide
theorem witness_OrderedJumpsReadTheirFlags :
    (fl false true false State.reset).flags.g = true ∧ (fl false false true State.reset).flags.l = true ∧
    State.reset.flags.g = false ∧ State.reset.flags.l = false ∧ State.reset.flags.e = false := by decide
theorem witness_CompareAndBranch :
    (next? (exec (.cmp (regByte 0) (regByte 1)) (x01 4 4 State.reset))).isSome = true ∧
    readReg 0 (x01 4 4 State.reset) = readReg 1 (x01 4 4 State.reset) ∧
    readReg 0 (x01 4 5 State.reset) ≠ readReg 1 (x01 4 5 State.reset) := by decide
theorem witness_IntAndIretAreIllegal :
    (at_ 255 [0x52]).runState = .running ∧ (at_ 255 [0x52]).pc.toNat ≤ 255 ∧ readByte 255 (at_ 255 [0x52]) = 0x52#8 ∧
    readByte 255 (at_ 255 [0x13]) = 0x13#8 := by decide
theorem witness_HostReadsOutputAndStatusWhileResetIsHeld :
    (held []).hostWrite 255 7 = some (held [(255, 7)]) ∧ (held []).load [1] = some (held [(0, 1)]) := by decide

end Sys2Proof.Tests
end

/-! PROOF. The shapes a next state of `exec` can have, said once, so that a frame statement over all instructions is a
case split over shapes. -/

namespace Sys2Proof.Machine

/-- What an instruction's next state can be, operation by operation. Where an instruction changes more than `pc` by name,
the constructor names the instruction or the register operand it changes. -/
inductive Effect : Instr → State → State → Prop where
  /-- A fault: nothing changes but the run state and the record (60_exceptions R202). -/
  | faulted {ins s} (c : FaultCause) : Effect ins s (faultedState c s)
  /-- HLT (40_engine_cycle R86). -/
  | halted {s} : Effect .hlt s { s with runState := .halted }
  /-- The generic advance alone (40_engine_cycle R88). -/
  | advanced {ins s} (n : Nat) (hn : ins.operandCount = n) : Effect ins s (advance n s)
  /-- A jump taken, or not taken (43_control_flow R182). -/
  | jumped {ins s} (hset : opSetsPc ins.opcode = true) (n : Nat) : Effect ins s (setPc n s)
  /-- A write of a register the instruction names. -/
  | wroteReg {ins s} (n : Nat) (i : Fin 8) (v : Int) (hn : ins.operandCount = n) (hi : regByte i ∈ ins.regOperands) :
      Effect ins s (advance n (writeReg i v s))
  /-- CMP (41_alu R113). -/
  | compared {s} (a b : Byte) (f : Flags) : Effect (.cmp a b) s (advance 2 (s.setFlags f))
  /-- ST (42_data_transfer R147). -/
  | stored {s} (a b : Byte) (addr : Nat) (v : Byte) : Effect (.st a b) s (advance 2 (s.setByte addr v))
  /-- PUSH (42_data_transfer R148). -/
  | pushed {s} (r v : Byte) : Effect (.push r) s (advance 1 ((decSp s).setByte (pushAddr s).toNat v))
  /-- POP (42_data_transfer R149). -/
  | popped {s} (i : Fin 8) (v : Int) : Effect (.pop (regByte i)) s (advance 1 (incSp (writeReg i v s)))
  /-- PRN (42_data_transfer R151). -/
  | printed {s} (i : Fin 8) : Effect (.prn (regByte i)) s (advance 1 (emit (readReg i s) s))
  /-- CALL (43_control_flow R170). -/
  | called {s} (r : Byte) (n : Nat) (v : Byte) :
      Effect (.call r) s (setPc n ((decSp s).setByte (pushAddr s).toNat v))
  /-- RET (43_control_flow R171). -/
  | returned {s} (n : Nat) : Effect .ret s (incSp (setPc n s))

/-- The operand count is the field AA of the first encoded byte (30_encoding R70). -/
theorem operandCount_of_encode {ins : Instr} {op : Byte} {rest : List Byte} {n : Nat} (h : encode ins = op :: rest)
    (hn : opOperandCount op = n) : ins.operandCount = n := by
  rw [Instr.operandCount, Instr.opcode, h, List.headD_cons, hn]

/-- An instruction sets `pc` itself if field C of its first encoded byte is set (30_encoding R63). -/
theorem opSetsPc_of_encode {ins : Instr} {op : Byte} {rest : List Byte} (h : encode ins = op :: rest)
    (hset : opSetsPc op = true) : opSetsPc ins.opcode = true := by
  rw [Instr.opcode, h, List.headD_cons, hset]

/-- Every next state of `exec` has one of the shapes. -/
theorem exec_effect {ins : Instr} {s t : State} (h : exec ins s = .next t) : Effect ins s t := by
  rcases badReg_or_wf ins with ⟨r, hr, -⟩ | hw
  · rw [exec_badReg s hr] at h
    cases h
    exact .faulted _
  · cases ins
    case nop | pra => cases h; exact .advanced _ (operandCount_of_encode rfl (by decide))
    case hlt => cases h; exact .halted
    case int | iret => cases h; exact .faulted _
    case ret => rw [exec_ret] at h; cases h; exact .returned _
    all_goals
      simp only [WellFormed, Instr.wf, Instr.regOperands, List.all_cons, List.all_nil, Bool.and_true, Bool.and_eq_true] at hw
    case push r =>
      obtain ⟨i, rfl⟩ := eq_regByte hw
      rw [exec_push] at h; cases h; exact .pushed _ _
    case pop r =>
      obtain ⟨i, rfl⟩ := eq_regByte hw
      rw [exec_pop] at h; cases h; exact .popped _ _
    case prn r =>
      obtain ⟨i, rfl⟩ := eq_regByte hw
      rw [exec_prn] at h; cases h; exact .printed _
    case call r =>
      obtain ⟨i, rfl⟩ := eq_regByte hw
      rw [exec_call] at h
      split_ifs at h <;> cases h
      · exact .faulted _
      · exact .called _ _ _
    case jmp r =>
      obtain ⟨i, rfl⟩ := eq_regByte hw
      rw [exec_jmp] at h; cases h; exact .jumped (opSetsPc_of_encode rfl (by decide)) _
    case jeq r | jne r | jgt r | jlt r | jle r | jge r =>
      obtain ⟨i, rfl⟩ := eq_regByte hw
      simp only [exec_jeq, exec_jne, exec_jgt, exec_jlt, exec_jle, exec_jge] at h
      cases h
      split_ifs <;> exact .jumped (opSetsPc_of_encode rfl (by decide)) _
    case inc r | dec r | not r | ldi r _ =>
      obtain ⟨i, rfl⟩ := eq_regByte hw
      simp only [exec_inc, exec_dec, exec_not, exec_ldi] at h
      cases h
      exact .wroteReg _ i _ (operandCount_of_encode rfl (by decide)) List.mem_cons_self
    all_goals obtain ⟨⟨i, rfl⟩, ⟨j, rfl⟩⟩ := And.intro (eq_regByte hw.1) (eq_regByte hw.2)
    case cmp => rw [exec_cmp] at h; cases h; exact .compared _ _ _
    case st => rw [exec_st] at h; cases h; exact .stored _ _ _ _
    case div | mod =>
      simp only [exec_div, exec_mod] at h
      split_ifs at h <;> cases h
      · exact .faulted _
      · exact .wroteReg _ i _ (operandCount_of_encode rfl (by decide)) List.mem_cons_self
    all_goals
      simp only [exec_add, exec_sub, exec_mul, exec_and, exec_or, exec_xor, exec_shl, exec_shr, exec_ld] at h
      cases h
      exact .wroteReg _ i _ (operandCount_of_encode rfl (by decide)) List.mem_cons_self

/-! ### The output stream and the status output (00_scope R9, R10) -/

/-- An instruction other than PRN has no effect on the output stream: `printed` is the one shape that emits. -/
theorem Effect.output_eq {ins : Instr} {s t : State} (h : Effect ins s t) (hprn : ∀ r, ins ≠ .prn r) :
    t.output = s.output := by
  cases h
  case printed i => exact absurd rfl (hprn _)
  all_goals simp

/-- Settles O22, by the shapes a next state of `exec` can have. -/
theorem onlyPrnProducesOutput : Obligations.OnlyPrnProducesOutput :=
  fun _ _ _ h hprn => (exec_effect h).output_eq hprn

/-- The status output does not change when reset is asserted (log 21). -/
@[simp] theorem assertReset_statusOutput (s : State) : s.assertReset.statusOutput = statusOutput s := rfl

/-- What the host sees while reset is held does not depend on memory, the one field a host write or a load changes. -/
theorem withMemory_hostView (h : HeldInReset) (m : Memory) :
    { h with memory := m }.output = h.output ∧ { h with memory := m }.statusOutput = h.statusOutput := ⟨rfl, rfl⟩

/-- Settles O50: asserting reset copies what the outputs show, and every host move while it is held changes memory only. -/
theorem hostReadsOutputAndStatusWhileResetIsHeld : Obligations.HostReadsOutputAndStatusWhileResetIsHeld := by
  refine ⟨fun s => ⟨assertReset_output s, assertReset_statusOutput s⟩, ?_⟩
  rintro h h' (⟨a, v, hw⟩ | ⟨program, hl⟩)
  · obtain ⟨-, rfl⟩ := hostWrite_eq hw
    exact withMemory_hostView h _
  · obtain ⟨-, rfl⟩ := load_eq hl
    exact withMemory_hostView h _

end Sys2Proof.Machine

/-! PROOF. State, flags, SP and reset: who writes FL and SP, what reset restores, the fault record that no step reads, and
the invariant that every step keeps. -/

namespace Sys2Proof.Machine

/-! ### Reset and the stopped machine (10_state R27, R38; 70_reset_and_hazards R230, R231) -/

/-- A state over the reset registers reads 0 in every register but SP (10_state R27). -/
theorem readReg_of_resetRegs {t : State} (h : t.regs = resetRegs) (i : Fin 8) :
    readReg i t = if i = 7 then 0xF4#8 else 0x00#8 := by
  rw [readReg, h]
  revert i
  decide

/-- Settles O1: `State.reset` and a release of reset agree on every field but memory. -/
theorem resetRestoresArchitecturalState : Obligations.ResetRestoresArchitecturalState := by
  rintro s t (rfl | rfl)
  · exact ⟨readReg_of_resetRegs (release_regs _), rfl, ⟨rfl, rfl, rfl⟩, rfl, rfl, fun _ => rfl⟩
  · exact ⟨readReg_of_resetRegs rfl, rfl, ⟨rfl, rfl, rfl⟩, rfl, rfl, fun _ => rfl⟩

/-- Settles O12: a step that answers a next state began in RUNNING. -/
theorem stoppedMachineTakesNoStepUntilReset : Obligations.StoppedMachineTakesNoStepUntilReset :=
  fun _ hs => ⟨fun _ h => hs (step_cases h).1, release_runState _⟩

/-! ### Who writes FL and SP (10_state R23, R24, R34) -/

/-- An instruction other than CMP leaves FL as it is: `compared` is the one shape that sets flags. -/
theorem Effect.flags_eq {ins : Instr} {s t : State} (h : Effect ins s t) (hcmp : ∀ a b, ins ≠ .cmp a b) :
    t.flags = s.flags := by
  cases h
  case compared a b f => exact absurd rfl (hcmp a b)
  all_goals simp

/-- A comparison sets exactly one flag (41_alu R113). -/
theorem compareFlags_oneSet (x y : Byte) :
    (compareFlags x y).e.toNat + (compareFlags x y).g.toNat + (compareFlags x y).l.toNat = 1 := by
  unfold compareFlags
  split_ifs <;> rfl

/-- Settles O20, by the shapes a next state of `exec` can have, and CMP's equation. -/
theorem onlyCmpWritesFlags : Obligations.OnlyCmpWritesFlags := by
  refine ⟨fun _ _ _ h hcmp => (exec_effect h).flags_eq hcmp, fun a b s t h => ?_⟩
  rw [exec_cmp] at h
  cases h
  exact compareFlags_oneSet _ _

/-- A write of a register an instruction names is no write of SP, where R7 is not named. -/
theorem ne_sp_of_named {ins : Instr} {i : Fin 8} (hi : regByte i ∈ ins.regOperands) (h7 : regByte 7 ∉ ins.regOperands) :
    7 ≠ i := by
  rintro rfl
  exact h7 hi

/-- Settles O23, by the shapes a next state of `exec` can have: those that write SP are the stack instructions', and a named
register is not R7. -/
theorem spChangesOnlyByStackOrByName : Obligations.SpChangesOnlyByStackOrByName := by
  intro ins s t h h7 hpush hpop hcall hret
  cases exec_effect h
  case wroteReg n i v hn hi => exact readReg_writeReg_ne s i 7 v (ne_sp_of_named hi h7)
  case pushed r v => exact absurd rfl (hpush r)
  case popped i v => exact absurd rfl (hpop _)
  case called r n v => exact absurd rfl (hcall r)
  case returned n => exact absurd rfl hret
  all_goals rfl

/-! ### The fault record is not read (10_state R39) -/

/-- The state with another fault record. -/
def State.withRecord (s : State) (r : FaultRecord) : State := { s with faultRecord := r }

@[simp] theorem withRecord_pc (s : State) (r : FaultRecord) : (s.withRecord r).pc = s.pc := rfl
@[simp] theorem withRecord_flags (s : State) (r : FaultRecord) : (s.withRecord r).flags = s.flags := rfl
@[simp] theorem readReg_withRecord (s : State) (r : FaultRecord) (i : Fin 8) :
    readReg i (s.withRecord r) = readReg i s := rfl

/-- Fetching and decoding read memory and `pc` only. -/
theorem fetchDecode_withRecord (s : State) (r : FaultRecord) : fetchDecode (s.withRecord r) = fetchDecode s := rfl

/-- A fault writes the whole record, whatever stood there (60_exceptions R201, R202). -/
theorem faultedState_withRecord (c : FaultCause) (s : State) (r : FaultRecord) :
    faultedState c (s.withRecord r) = faultedState c s := rfl

/-- A step's next state after the other record was put in: `t` where `t` took a fault, else `t` with that record. -/
def carryRecord (r : FaultRecord) (t : State) : State := if t.runState = .faulted then t else t.withRecord r

theorem carryRecord_faultedState (r : FaultRecord) (c : FaultCause) (s : State) :
    carryRecord r (faultedState c s) = faultedState c s := if_pos rfl

/-- An operation that ends in RUNNING carries the other record along. -/
theorem next_carryRecord {t u : State} {r : FaultRecord} (ht : t.runState = .running) (hu : u = t.withRecord r) :
    (Host.Outcome.next u : Result) = .next (carryRecord r t) := by
  simp [carryRecord, ht, hu]

/-- With another record there, `exec` does the same: every operation carries the record along, and a fault writes it. -/
theorem exec_withRecord {ins : Instr} {s t : State} (r : FaultRecord) (hr : s.runState = .running)
    (h : exec ins s = .next t) : exec ins (s.withRecord r) = .next (carryRecord r t) := by
  rcases badReg_or_wf ins with ⟨b, hb, -⟩ | hw
  · rw [exec_badReg s hb] at h
    cases h
    rw [exec_badReg _ hb, faultedState_withRecord, carryRecord_faultedState]
  · cases ins
    case hlt => cases h; rfl
    case int | iret => cases h; rfl
    case nop | pra => cases h; exact next_carryRecord hr rfl
    case ret =>
      rw [exec_ret] at h ⊢; cases h
      exact next_carryRecord hr rfl
    all_goals
      simp only [WellFormed, Instr.wf, Instr.regOperands, List.all_cons, List.all_nil, Bool.and_true, Bool.and_eq_true] at hw
    case push | pop | prn | jmp | inc | dec | not | ldi =>
      obtain ⟨i, rfl⟩ := eq_regByte hw
      simp only [exec_push, exec_pop, exec_prn, exec_jmp, exec_inc, exec_dec, exec_not, exec_ldi] at h ⊢
      cases h
      exact next_carryRecord hr rfl
    case jeq | jne | jgt | jlt | jle | jge =>
      obtain ⟨i, rfl⟩ := eq_regByte hw
      simp only [exec_jeq, exec_jne, exec_jgt, exec_jlt, exec_jle, exec_jge] at h ⊢
      cases h
      rw [withRecord_flags]
      split_ifs <;> exact next_carryRecord hr rfl
    case call =>
      obtain ⟨i, rfl⟩ := eq_regByte hw
      rw [exec_call] at h ⊢
      rw [withRecord_pc]
      split_ifs at h ⊢ <;> cases h
      · rfl
      · exact next_carryRecord hr rfl
    all_goals obtain ⟨⟨i, rfl⟩, ⟨j, rfl⟩⟩ := And.intro (eq_regByte hw.1) (eq_regByte hw.2)
    case div | mod =>
      simp only [exec_div, exec_mod] at h ⊢
      rw [readReg_withRecord s r j]
      split_ifs at h ⊢ <;> cases h
      · rfl
      · exact next_carryRecord hr rfl
    all_goals
      simp only [exec_add, exec_sub, exec_mul, exec_and, exec_or, exec_xor, exec_shl, exec_shr, exec_cmp, exec_ld,
        exec_st] at h ⊢
      cases h
      exact next_carryRecord hr rfl

/-- Settles O19: the same bytes decode, and the instruction or the fault does the same. -/
theorem faultRecordIsNotRead : Obligations.FaultRecordIsNotRead := by
  intro s t r h
  obtain ⟨hr, ⟨e, hd, hu⟩ | ⟨ins, hd, hx⟩⟩ := step_cases h
  · refine (step_error (s := s.withRecord r) hr ((fetchDecode_withRecord s r).trans hd)).trans ?_
    rcases undecoded_cases hu with ⟨k, rfl, rfl⟩ | ⟨op, rfl, rfl⟩ | ⟨op, rfl, rfl⟩ <;> rfl
  · exact (step_ok (s := s.withRecord r) hr ((fetchDecode_withRecord s r).trans hd)).trans (exec_withRecord r hr hx)

/-! ### The invariant (10_state R29, R34, R38; 60_exceptions R201 to R206) -/

/-- Flags of which exactly one is set are legal. -/
theorem Flags.legal_of_oneSet {f : Flags} (h : f.e.toNat + f.g.toNat + f.l.toNat = 1) : f.legal := by
  refine ⟨?_, ?_, ?_⟩ <;> rintro ⟨h1, h2⟩ <;> rw [h1, h2] at h <;> simp only [Bool.toNat_true] at h <;> omega

/-- In RUNNING the invariant asks for memory, `pc` and FL only. -/
theorem Inv.of_running {t : State} (hr : t.runState = .running) (hm : Memory.wf t.memory = true)
    (hpc : t.pc.toNat ≤ 256) (hf : t.flags.legal) : Inv t where
  memory_canonical := hm
  pc_range := hpc
  flags_legal := hf
  halted_at_hlt := by simp [hr]
  record_legal := by simp [hr]

/-- A fault with a legal record keeps the invariant. -/
theorem Inv.afterFault {s : State} {c : FaultCause} (hi : Inv s) (hrec : recordLegal (faultedState c s)) :
    Inv (faultedState c s) where
  memory_canonical := hi.memory_canonical
  pc_range := hi.pc_range
  flags_legal := hi.flags_legal
  halted_at_hlt := by simp
  record_legal := fun _ => hrec

/-! #### The record of each cause is legal where the cause holds -/

section
variable {s : State} {ins : Instr}

theorem recordLegal_memory {a : Nat} (ha : a = 256) (h : memoryFaultHere s) :
    recordLegal (faultedState (.outOfBoundsMemory a) s) :=
  ⟨rfl, .inl ⟨rfl, rfl, by subst ha; rfl, h⟩⟩

theorem recordLegal_register {r : Byte} (h : registerFaultHere s r) :
    recordLegal (faultedState (.outOfBoundsRegister r) s) :=
  ⟨rfl, .inr (.inl ⟨rfl, rfl, r, rfl, h⟩)⟩

theorem recordLegal_divide {j : Fin 8} (h : divideFaultHere s j) :
    recordLegal (faultedState (.divideByZero (regByte j)) s) := by
  refine ⟨rfl, .inr (.inr (.inl ⟨rfl, rfl, j, ?_, h⟩))⟩
  exact BitVec.eq_of_toNat_eq (by simp [FaultCause.record, FaultCause.detail])

theorem recordLegal_unsupported (h : unsupportedFaultHere s) :
    recordLegal (faultedState (.unsupportedOperation (codeByte 0 s)) s) :=
  ⟨rfl, .inr (.inr (.inr (.inl ⟨rfl, rfl, rfl, h⟩)))⟩

theorem recordLegal_illegal (h : illegalFaultHere s) :
    recordLegal (faultedState (.illegalInstruction (codeByte 0 s)) s) :=
  ⟨rfl, .inr (.inr (.inr (.inr ⟨rfl, rfl, rfl, h⟩)))⟩

/-- An opcode outside 30_encoding R64 raises by its bit 5 (30_encoding R71). -/
theorem undefinedOpcode_keeps_inv {t : State} (hi : Inv s) (hpc : s.pc.toNat ≤ 255) (hop : codeByte 0 s ∉ definedOpcodes)
    (h : undecoded (undefinedOpcode (codeByte 0 s)) s = .next t) : Inv t := by
  simp only [definedOpcodes, List.append_assoc, List.mem_append, not_or] at hop
  obtain ⟨halu, hcontrol, htransfer⟩ := hop
  unfold undefinedOpcode at h
  split_ifs at h with hbit
  · cases h
    exact hi.afterFault (recordLegal_unsupported ⟨hpc, hbit, halu⟩)
  · cases h
    exact hi.afterFault (recordLegal_illegal ⟨hpc, by simpa using hbit, .inl (by simp [hcontrol, htransfer])⟩)

/-- Bytes that are no instruction leave a fault whose cause holds (40_engine_cycle R81, R83, R84). -/
theorem undecoded_keeps_inv {e : DecodeError} {t : State} (hi : Inv s) (hd : fetchDecode s = .error e)
    (h : undecoded e s = .next t) : Inv t := by
  have hpc := hi.pc_range
  rcases fetchDecode_error hd with ⟨hgt, rfl⟩ | ⟨hle, ⟨k, hk, rfl, hdef, hne, hcount⟩ | ⟨hop, rfl⟩⟩
  · cases h
    exact hi.afterFault (recordLegal_memory (by omega) (.inl hgt))
  · cases h
    exact hi.afterFault (recordLegal_memory hk (.inr (.inl ⟨hdef, hne, hcount⟩)))
  · exact undefinedOpcode_keeps_inv hi hle hop h

/-! #### A decoded instruction -/

/-- Every instruction's opcode is one of 30_encoding R64. -/
theorem opcode_mem_definedOpcodes (ins : Instr) : ins.opcode ∈ definedOpcodes := by
  cases ins <;> simp [Instr.opcode, encode, definedOpcodes, aluOpcodes, controlOpcodes, transferOpcodes]

/-- An instruction is one byte longer than its operand count (30_encoding R70). -/
theorem encode_length (ins : Instr) : (encode ins).length = opOperandCount ins.opcode + 1 := by
  cases ins <;> simp [encode, Instr.opcode, opOperandCount]

/-- An instruction that lies in memory ends there. -/
theorem bytesAt_end_le (h : BytesAt s (encode ins)) : s.pc.toNat + (encode ins).length ≤ 256 := by
  have hlen := encode_length ins
  have hlast := (h (opOperandCount ins.opcode) (by omega)).1
  omega

/-- A bad register operand of a decoded instruction is the cause R203 names. -/
theorem registerFaultHere_of_bytesAt {r : Byte} (hop : codeByte 0 s = ins.opcode) (hat : BytesAt s (encode ins))
    (hr : ins.regOperands.find? (fun b => decide (7 < b.toNat)) = some r) : registerFaultHere s r := by
  refine ⟨hop ▸ opcode_mem_definedOpcodes ins, ?_, by rwa [registerBytes_eq hat]⟩
  have hend := bytesAt_end_le hat
  rw [encode_length] at hend
  rw [hop]
  omega

/-- A DIV or MOD that lies in memory, with valid operands and a zero divisor, is the cause R204 names. -/
theorem divideFaultHere_of_bytesAt {op : Byte} {i j : Fin 8} (hat : BytesAt s [op, regByte i, regByte j])
    (hop : op ∈ [0xA3#8, 0xA4#8]) (hz : readReg j s = 0#8) : divideFaultHere s j := by
  have hi := regByte_toNat i
  refine ⟨(hat 2 (by simp)).1, ?_, ?_, bytesAt_codeByte hat rfl, hz⟩
  · rwa [bytesAt_codeByte (k := 0) hat rfl]
  · rw [bytesAt_codeByte (k := 1) hat rfl]
    omega

/-- A CALL that lies in memory and has no return address there stands at 254, the last cause of R203 about memory. -/
theorem memoryFaultHere_of_call {i : Fin 8} (hat : BytesAt s [0x50#8, regByte i]) (hret : 255 < s.pc.toNat + 2) :
    s.pc.toNat + 2 = 256 ∧ memoryFaultHere s := by
  have hlast := (hat 1 (by simp)).1
  have hi := regByte_toNat i
  refine ⟨by omega, .inr (.inr ⟨by omega, bytesAt_codeByte hat rfl, ?_⟩)⟩
  rw [bytesAt_codeByte (k := 1) hat rfl]
  omega

/-- INT and IRET raise IllegalInstruction about their own opcode (43_control_flow R179, R180). -/
theorem Inv.afterIntIret {op : Byte} (hi : Inv s) (hpc : s.pc.toNat ≤ 255) (hop : codeByte 0 s = op)
    (hm : op ∈ [0x13#8, 0x52#8]) : Inv (faultedState (.illegalInstruction op) s) := by
  have hbit : ∀ op ∈ [0x13#8, 0x52#8], opIsAlu op = false := by decide
  subst hop
  exact hi.afterFault (recordLegal_illegal ⟨hpc, hbit _ hm, .inr hm⟩)

/-- HLT halts on its own opcode byte (40_engine_cycle R86). -/
theorem Inv.afterHalt (hi : Inv s) (hop : codeByte 0 s = 0x01#8) : Inv { s with runState := .halted } where
  memory_canonical := hi.memory_canonical
  pc_range := hi.pc_range
  flags_legal := hi.flags_legal
  halted_at_hlt := fun _ => hop
  record_legal := by simp

/-- The `pc` past an instruction that lies in memory is at most 256 (10_state R29). -/
theorem pcPast_le {n : Nat} (h : s.pc.toNat + (n + 1) ≤ 256) : (BitVec.ofNat 9 (s.pc.toNat + 1 + n)).toNat ≤ 256 := by
  rw [BitVec.toNat_ofNat]
  omega

/-- A byte as a jump target is in range. -/
theorem pcOfByte_le (b : Byte) : (BitVec.ofNat 9 b.toNat).toNat ≤ 256 := by
  rw [pcOfByte_toNat]
  omega

/-- A byte written at a byte's address keeps the canonical form. -/
theorem setByte_wf (hi : Inv s) (a v : Byte) : Memory.wf (Memory.set s.memory a.toNat v) = true :=
  set_wf _ _ _ (Nat.le_of_lt_succ a.isLt) hi.memory_canonical

/-- A well-formed instruction that lies in memory keeps the invariant. -/
theorem exec_keeps_inv {t : State} (hi : Inv s) (hr : s.runState = .running) (hw : WellFormed ins)
    (hat : BytesAt s (encode ins)) (h : exec ins s = .next t) : Inv t := by
  have hn := bytesAt_end_le hat
  have hm := hi.memory_canonical
  have hf := hi.flags_legal
  cases ins
  case int | iret =>
    cases h
    exact hi.afterIntIret (hat 0 (by simp [encode])).1 (bytesAt_codeByte hat rfl) (by simp)
  case hlt => cases h; exact hi.afterHalt (bytesAt_codeByte hat rfl)
  case nop | pra => cases h; exact .of_running hr hm (pcPast_le hn) hf
  case ret => rw [exec_ret] at h; cases h; exact .of_running hr hm (pcOfByte_le _) hf
  all_goals
    simp only [WellFormed, Instr.wf, Instr.regOperands, List.all_cons, List.all_nil, Bool.and_true, Bool.and_eq_true] at hw
  case pop | prn | inc | dec | not | ldi =>
    obtain ⟨i, rfl⟩ := eq_regByte hw
    simp only [exec_pop, exec_prn, exec_inc, exec_dec, exec_not, exec_ldi] at h
    cases h
    exact .of_running hr hm (pcPast_le hn) hf
  case push =>
    obtain ⟨i, rfl⟩ := eq_regByte hw
    rw [exec_push] at h
    cases h
    exact .of_running hr (setByte_wf hi _ _) (pcPast_le hn) hf
  case call =>
    obtain ⟨i, rfl⟩ := eq_regByte hw
    rw [exec_call] at h
    split_ifs at h with hret <;> cases h
    · obtain ⟨haddr, hhere⟩ := memoryFaultHere_of_call hat hret
      exact hi.afterFault (recordLegal_memory haddr hhere)
    · exact .of_running hr (setByte_wf hi _ _) (pcOfByte_le _) hf
  case jmp =>
    obtain ⟨i, rfl⟩ := eq_regByte hw
    rw [exec_jmp] at h
    cases h
    exact .of_running hr hm (pcOfByte_le _) hf
  case jeq | jne | jgt | jlt | jle | jge =>
    obtain ⟨i, rfl⟩ := eq_regByte hw
    simp only [exec_jeq, exec_jne, exec_jgt, exec_jlt, exec_jle, exec_jge] at h
    cases h
    split_ifs
    · exact .of_running hr hm (pcOfByte_le _) hf
    · exact .of_running hr hm (pcPast_le hn) hf
  all_goals obtain ⟨⟨i, rfl⟩, ⟨j, rfl⟩⟩ := And.intro (eq_regByte hw.1) (eq_regByte hw.2)
  case cmp =>
    rw [exec_cmp] at h
    cases h
    exact .of_running hr hm (pcPast_le hn) (Flags.legal_of_oneSet (compareFlags_oneSet _ _))
  case st =>
    rw [exec_st] at h
    cases h
    exact .of_running hr (setByte_wf hi _ _) (pcPast_le hn) hf
  case div | mod =>
    simp only [exec_div, exec_mod] at h
    split_ifs at h with hz <;> cases h
    · exact hi.afterFault (recordLegal_divide (divideFaultHere_of_bytesAt hat (by simp) hz))
    · exact .of_running hr hm (pcPast_le hn) hf
  all_goals
    simp only [exec_add, exec_sub, exec_mul, exec_and, exec_or, exec_xor, exec_shl, exec_shr, exec_ld] at h
    cases h
    exact .of_running hr hm (pcPast_le hn) hf

/-- A decoded instruction keeps the invariant: INT's operand byte may be missing, a bad register operand is reported, and
any other instruction lies in memory. -/
theorem decoded_keeps_inv {t : State} (hi : Inv s) (hr : s.runState = .running) (hd : fetchDecode s = .ok ins)
    (h : exec ins s = .next t) : Inv t := by
  obtain ⟨hpc, hop, hat⟩ := fetchDecode_ok hd
  by_cases hint : ins = .int
  · subst hint
    cases h
    exact hi.afterIntIret hpc hop (by simp)
  · rcases badReg_or_wf ins with ⟨r, hbad, -⟩ | hw
    · rw [exec_badReg s hbad] at h
      cases h
      exact hi.afterFault (recordLegal_register (registerFaultHere_of_bytesAt hop (hat hint) hbad))
    · exact exec_keeps_inv hi hr hw (hat hint) h

end

/-- Settles O5: a step is the decoded instruction or the fault of undecodable bytes, and both keep the invariant. -/
theorem stepKeepsInv : Obligations.StepKeepsInv := by
  intro s t hi h
  obtain ⟨hr, ⟨e, hd, hu⟩ | ⟨ins, hd, hx⟩⟩ := step_cases h
  · exact undecoded_keeps_inv hi hd hu
  · exact decoded_keeps_inv hi hr hd hx

end Sys2Proof.Machine

/-! PROOF. Memory (20_memory): the canonical form is unique, who writes memory, and a store that the next fetch sees. -/

namespace Sys2Proof.Machine

/-! ### The canonical form is unique (20_memory R40, R44; log 7) -/

/-- A canonical memory reads as unwritten below its lower bound. -/
theorem get_below_of_wfFrom {m : Memory} {low a : Nat} (hm : Memory.wfFrom low m = true) (ha : a < low) :
    Memory.get m a = unwrittenByte := by
  induction m generalizing low with
  | nil => rfl
  | cons c m ih =>
    obtain ⟨k, v⟩ := c
    obtain ⟨hk, -, -, htail⟩ := (wfFrom_cons low k v m).mp hm
    rw [get_cons, if_neg (by omega)]
    exact ih htail (by omega)

/-- A canonical memory is canonical from the address of its first cell. -/
theorem wfFrom_head {m : Memory} {low k : Nat} {v : Byte} (hm : Memory.wfFrom low ((k, v) :: m) = true) :
    Memory.wfFrom k ((k, v) :: m) = true := by
  rw [wfFrom_cons] at hm ⊢
  exact ⟨le_rfl, hm.2⟩

/-- A canonical memory that reads the same at the first cell of another does not start above that cell, which would read as
unwritten. -/
theorem lowerBound_le_head {m m' : Memory} {low low' k : Nat} {v : Byte}
    (hm : Memory.wfFrom low ((k, v) :: m) = true) (hm' : Memory.wfFrom low' m' = true)
    (hget : Memory.get ((k, v) :: m) k = Memory.get m' k) : low' ≤ k := by
  obtain ⟨-, -, hv, -⟩ := (wfFrom_cons low k v m).mp hm
  by_contra hlt
  rw [get_cons, if_pos rfl, get_below_of_wfFrom hm' (by omega)] at hget
  exact hv hget

/-- Canonical memories that begin with the same cell and read the same have tails that read the same. -/
theorem get_tail_eq {m m' : Memory} {k : Nat} {v : Byte} (hm : Memory.wfFrom (k + 1) m = true)
    (hm' : Memory.wfFrom (k + 1) m' = true)
    (hget : ∀ a, Memory.get ((k, v) :: m) a = Memory.get ((k, v) :: m') a) (a : Nat) :
    Memory.get m a = Memory.get m' a := by
  by_cases ha : k = a
  · rw [get_below_of_wfFrom hm (by omega), get_below_of_wfFrom hm' (by omega)]
  · simpa [get_cons, ha] using hget a

/-- Canonical memories that read the same are equal, whatever their lower bounds: neither begins below the other. -/
theorem eq_of_get_eq {m m' : Memory} {low low' : Nat} (hm : Memory.wfFrom low m = true)
    (hm' : Memory.wfFrom low' m' = true) (hget : ∀ a, Memory.get m a = Memory.get m' a) : m = m' := by
  induction m generalizing m' low low' with
  | nil =>
    cases m' with
    | nil => rfl
    | cons c' m' => exact absurd (lowerBound_le_head (low' := c'.1 + 1) hm' rfl (hget c'.1).symm) (by omega)
  | cons c m ih =>
    obtain ⟨k, v⟩ := c
    cases m' with
    | nil => exact absurd (lowerBound_le_head (low' := k + 1) hm rfl (hget k)) (by omega)
    | cons c' m' =>
      obtain ⟨k', w⟩ := c'
      have hle : k' ≤ k := lowerBound_le_head hm (wfFrom_head hm') (hget k)
      have hle' : k ≤ k' := lowerBound_le_head hm' (wfFrom_head hm) (hget k').symm
      obtain rfl : k = k' := le_antisymm hle' hle
      obtain rfl : v = w := by simpa [get_cons] using hget k
      obtain ⟨-, -, -, htail⟩ := (wfFrom_cons low k v m).mp hm
      obtain ⟨-, -, -, htail'⟩ := (wfFrom_cons low' k v m').mp hm'
      rw [ih htail htail' (get_tail_eq htail htail' hget)]

/-- Settles O6, by induction on the cells: the first cells agree, and so do the tails. -/
theorem canonicalMemoriesAreEqualIfTheyReadEqual : Obligations.CanonicalMemoriesAreEqualIfTheyReadEqual :=
  fun _ _ hm hm' hget => eq_of_get_eq hm hm' hget

/-! ### Who writes memory (20_memory R41) -/

/-- An instruction other than ST, PUSH and CALL leaves memory as it is: `stored`, `pushed` and `called` are the shapes that
set a byte. -/
theorem Effect.memory_eq {ins : Instr} {s t : State} (h : Effect ins s t) (hst : ∀ a b, ins ≠ .st a b)
    (hpush : ∀ r, ins ≠ .push r) (hcall : ∀ r, ins ≠ .call r) : t.memory = s.memory := by
  cases h
  case stored a b addr v => exact absurd rfl (hst a b)
  case pushed r v => exact absurd rfl (hpush r)
  case called r n v => exact absurd rfl (hcall r)
  all_goals simp

/-- Equal memories read equal at every address. -/
theorem keepsMemory_of_memory_eq {s t : State} (h : t.memory = s.memory) : KeepsMemory s t := by
  intro a
  rw [readByte, readByte, h]

/-- Settles O21, by the shapes a next state of `exec` can have. -/
theorem onlyStPushCallWriteMemory : Obligations.OnlyStPushCallWriteMemory :=
  fun _ _ _ h hst hpush hcall => keepsMemory_of_memory_eq ((exec_effect h).memory_eq hst hpush hcall)

/-! ### A store and the next fetch (20_memory R51) -/

/-- Bytes that decode, lying at `pc`, are what is fetched, whatever follows them. -/
theorem fetchDecode_of_bytesAt {s : State} {bytes : List Byte} {ins : Instr} (hat : BytesAt s bytes)
    (hd : decode bytes = .ok ins) : fetchDecode s = .ok ins := by
  refine decodeFrom_mono (fun k b hk => ?_) hd
  obtain ⟨hlen, hb⟩ := List.getElem?_eq_some_iff.mp hk
  obtain ⟨hmem, hread⟩ := hat k hlen
  rw [fetchByte_eq, if_pos hmem, hread, hb]

/-- Settles O40: the stored byte lies at `pc` after the ST, so the next fetch decodes it. -/
theorem storeIsSeenByTheNextFetch : Obligations.StoreIsSeenByTheNextFetch := by
  intro a b s t ins hr h hpc hd
  rw [exec_st] at h
  cases h
  have hbyte : readByte (readReg a s).toNat (advance 2 (s.setByte (readReg a s).toNat (readReg b s))) = readReg b s :=
    get_set_same _ _ _
  refine step_ok hr (fetchDecode_of_bytesAt (bytesAt_one ?_ ?_) hd)
  · rw [hpc]
    exact Nat.le_of_lt_succ (readReg a s).isLt
  · rw [codeByte, Nat.add_zero, hpc, hbyte]

end Sys2Proof.Machine

/-! PROOF. Encoding (30_encoding): decode and encode agree, the opcode's fields agree with the table, and words written out
from the table decode. -/

namespace Sys2Proof.Machine

/-! ### Decode of encode (30_encoding R64, R67) -/

/-- Bytes that follow an instruction do not change what it decodes to. -/
theorem decode_append {bytes : List Byte} {ins : Instr} (h : decode bytes = .ok ins) (rest : List Byte) :
    decode (bytes ++ rest) = .ok ins := by
  refine decodeFrom_mono (fun k b hk => ?_) h
  obtain ⟨hlen, -⟩ := List.getElem?_eq_some_iff.mp hk
  rwa [List.getElem?_append_left hlen]

/-- The row of every instruction's opcode makes that instruction of its operand bytes. -/
theorem decode_encode (ins : Instr) : decode (encode ins) = .ok ins := by
  cases ins <;> rfl

/-! ### Encode of decode (30_encoding R67, R68, R70; 43_control_flow R179) -/

/-- The first encoded byte is the opcode. -/
theorem opcode_of_encode {ins : Instr} {op : Byte} {rest : List Byte} (h : encode ins = op :: rest) : ins.opcode = op := by
  rw [Instr.opcode, h, List.headD_cons]

/-- A list whose first byte exists begins with it. -/
theorem exists_cons_of_getElem?_zero {l : List Byte} {b : Byte} (h : l[0]? = some b) : ∃ rest, l = b :: rest :=
  List.head?_eq_some_iff.mp (List.head?_eq_getElem?.trans h)

/-- Bytes that decode begin with the instruction's opcode, and with its whole encoding if it is not INT: each format has
read exactly the bytes its instruction encodes to. -/
theorem decode_ok {bytes : List Byte} {ins : Instr} (h : decode bytes = .ok ins) :
    (∃ rest, bytes = ins.opcode :: rest) ∧ (ins ≠ .int → ∃ rest, bytes = encode ins ++ rest) := by
  obtain ⟨op, h0, hcase⟩ := decodeFrom_ok h
  obtain ⟨tail, rfl⟩ := exists_cons_of_getElem?_zero h0
  rcases hcase with ⟨rfl, rfl⟩ | hf | hf | ⟨make, a, hf, h1, rfl⟩ | ⟨make, a, b, hf, h1, h2, rfl⟩
  · exact ⟨⟨tail, rfl⟩, fun _ => ⟨tail, rfl⟩⟩
  · have he : encode ins = [op] := formOf_encodes hf
    exact ⟨⟨tail, by rw [opcode_of_encode he]⟩, fun _ => ⟨tail, by rw [he, List.singleton_append]⟩⟩
  · obtain ⟨hop, he⟩ := formOf_encodes hf
    exact ⟨⟨tail, by rw [hop]⟩, fun hint => ⟨tail, by rw [he.resolve_left hint, List.singleton_append]⟩⟩
  · have he := formOf_encodes hf a
    obtain ⟨rest, rfl⟩ := exists_cons_of_getElem?_zero h1
    exact ⟨⟨_, by rw [opcode_of_encode he]⟩, fun _ => ⟨rest, by rw [he]; rfl⟩⟩
  · have he : encode (make a b) = [op, a, b] := by
      rcases hf with hf | hf <;> exact formOf_encodes hf a b
    obtain ⟨tail', rfl⟩ := exists_cons_of_getElem?_zero h1
    obtain ⟨rest, rfl⟩ := exists_cons_of_getElem?_zero h2
    exact ⟨⟨_, by rw [opcode_of_encode he]⟩, fun _ => ⟨rest, by rw [he]; rfl⟩⟩

/-- Settles O7: the decoder reads back what the encoder writes, and a decoded instruction's row encodes to the bytes read. -/
theorem decodeAndEncodeAgree : Obligations.DecodeAndEncodeAgree := by
  refine ⟨fun ins rest => decode_append (decode_encode ins) rest, fun _ _ hint h => (decode_ok h).2 hint, fun bytes => ?_⟩
  constructor
  · exact fun h => (decode_ok h).1
  · rintro ⟨rest, rfl⟩
    have hint : decode [0x52#8] = .ok .int := rfl
    exact decode_append hint rest

/-! ### The opcode's fields (30_encoding R63, R65) -/

/-- Among the 34 opcodes, bit 5 marks the ALU opcodes and bit 4 the control-flow opcodes. -/
theorem opFields_of_mem_definedOpcodes : ∀ op ∈ definedOpcodes,
    (opIsAlu op = true ↔ op ∈ aluOpcodes) ∧ (opSetsPc op = true ↔ op ∈ controlOpcodes) := by
  decide

/-- A format that encodes to an opcode makes an instruction with that opcode, whatever its operand bytes. -/
theorem rowEncodes_exists_instr {op : Byte} {f : Form} (h : rowEncodes op f) : ∃ ins : Instr, ins.opcode = op := by
  cases f with
  | z ins => exact ⟨ins, opcode_of_encode h⟩
  | faulting ins => exact ⟨ins, h.1⟩
  | r make => exact ⟨make 0, opcode_of_encode (h 0)⟩
  | rr make => exact ⟨make 0 0, opcode_of_encode (h 0 0)⟩
  | ri make => exact ⟨make 0 0, opcode_of_encode (h 0 0)⟩

/-- Settles O8: every instruction's opcode is one of the 34, of which the fields are checked; every one of the 34 has a row. -/
theorem opcodeFieldsAgreeWithTheTable : Obligations.OpcodeFieldsAgreeWithTheTable := by
  refine ⟨fun ins => ?_, fun op hop => ?_, rfl, rfl, by decide⟩
  · have hmem := opcode_mem_definedOpcodes ins
    obtain ⟨halu, hctl⟩ := opFields_of_mem_definedOpcodes _ hmem
    exact ⟨hmem, by rw [encode_length, Nat.add_comm], halu, hctl⟩
  · obtain ⟨row, hrow, rfl⟩ := opcodeMap_covers op hop
    exact rowEncodes_exists_instr (opcodeMap_encodes row hrow)

/-! ### Words written out from the table (30_encoding R64) -/

/-- Settles O9: each word is the encoding of its instruction. -/
theorem writtenOutWordsDecode : Obligations.WrittenOutWordsDecode :=
  ⟨decode_encode (.ldi 0 8), decode_encode (.prn 0), decode_encode .hlt, decode_encode (.mul 0 1),
    decode_encode (.push 0), decode_encode (.call 1), decode_encode .ret, decode_encode (.jeq 2), decode_encode (.st 0 1)⟩

end Sys2Proof.Machine

/-! PROOF. The engine cycle (40_engine_cycle): every RUNNING state steps, what a fetch and an operand check can answer,
where a step leaves `pc`, and halting. -/

namespace Sys2Proof.Machine

/-! ### Stepping (R80, R87, R89, R90) -/

/-- Settles O10: bytes that decode, lying at `pc`, are what the step fetches. -/
theorem stepRunsTheDecodedInstruction : Obligations.StepRunsTheDecodedInstruction :=
  fun _ _ _ hr hat hd => step_ok hr (fetchDecode_of_bytesAt hat hd)

/-- The end of an instruction is a next state, a fault's included. -/
theorem conclude_next (s : State) (r : Except FaultCause State) : ∃ t, conclude s r = .next t := by
  cases r with
  | ok t => exact ⟨t, rfl⟩
  | error c => exact ⟨faultedState c s, rfl⟩

/-- The check of one register operand answers a next state, whatever the byte and the rule. -/
theorem withReg_next (a : Byte) (s : State) (rule : Fin 8 → Except FaultCause State) : ∃ t, withReg a s rule = .next t := by
  unfold withReg
  cases regIndex a with
  | error c => exact ⟨faultedState c s, rfl⟩
  | ok i => exact conclude_next s (rule i)

/-- The check of two register operands answers a next state, whatever the bytes and the rule. -/
theorem withRegs_next (a b : Byte) (s : State) (rule : Fin 8 → Fin 8 → Except FaultCause State) :
    ∃ t, withRegs a b s rule = .next t := by
  unfold withRegs
  cases regIndex a with
  | error c => exact ⟨faultedState c s, rfl⟩
  | ok i =>
    cases regIndex b with
    | error c => exact ⟨faultedState c s, rfl⟩
    | ok j => exact conclude_next s (rule i j)

/-- Every instruction answers a next state, by its format. -/
theorem exec_next (ins : Instr) (s : State) : ∃ t, exec ins s = .next t := by
  cases ins
  case nop | hlt | pra | int | iret => exact ⟨_, rfl⟩
  case ret => exact conclude_next s _
  case push r | pop r | prn r | call r | jmp r | jeq r | jne r | jgt r | jlt r | jle r | jge r | inc r | dec r | not r |
      ldi r _ =>
    exact withReg_next r s _
  case ld a b | st a b | add a b | sub a b | mul a b | div a b | mod a b | cmp a b | and a b | or a b | xor a b | shl a b |
      shr a b =>
    exact withRegs_next a b s _

/-- Bytes that are no instruction answer a next state, in FAULTED. -/
theorem undecoded_next (e : DecodeError) (s : State) : ∃ c, undecoded e s = .next (faultedState c s) := by
  cases e <;> exact ⟨_, rfl⟩

/-- Settles O11: the step is a decoded instruction or the fault of undecodable bytes, and both answer a next state. -/
theorem everyRunningStateSteps : Obligations.EveryRunningStateSteps := by
  intro s hr
  cases hd : fetchDecode s with
  | ok ins =>
    rw [step_ok hr hd]
    exact exec_next ins s
  | error e =>
    rw [step_error hr hd]
    obtain ⟨c, hc⟩ := undecoded_next e s
    exact ⟨_, hc⟩

/-! ### Halting (R82, R86) -/

/-- A step halts only by decoding HLT: a fault leaves FAULTED, any other instruction keeps RUNNING. -/
theorem fetchDecode_of_step_halted {s t : State} (h : step s = .next t) (ht : t.runState = .halted) :
    fetchDecode s = .ok .hlt := by
  obtain ⟨hr, ⟨e, -, hu⟩ | ⟨ins, hd, hx⟩⟩ := step_cases h
  · obtain ⟨c, hc⟩ := undecoded_next e s
    cases hc.symm.trans hu
    cases ht
  · rcases exec_cases hx with ⟨hkeep, -⟩ | ⟨rfl, -⟩ | ⟨c, rfl⟩
    · cases hr.symm.trans (hkeep.symm.trans ht)
    · exact hd
    · cases ht

/-- HLT is fetched exactly where its opcode byte lies at `pc`. -/
theorem fetchDecode_hlt_iff (s : State) :
    fetchDecode s = .ok .hlt ↔ s.pc.toNat ≤ 255 ∧ readByte s.pc.toNat s = 0x01#8 := by
  constructor
  · intro hd
    obtain ⟨hpc, hop, -⟩ := fetchDecode_ok hd
    exact ⟨hpc, hop⟩
  · rintro ⟨hpc, hop⟩
    exact fetchDecode_of_bytesAt (bytesAt_one hpc hop) (decode_encode .hlt)

/-- Settles O13: a step halts exactly if it fetches HLT, and it fetches HLT exactly where the halt opcode lies at `pc`. -/
theorem onlyTheHaltOpcodeHalts : Obligations.OnlyTheHaltOpcodeHalts := by
  intro s t h
  rw [← fetchDecode_hlt_iff]
  refine ⟨fetchDecode_of_step_halted h, fun hd => ?_⟩
  obtain ⟨hr, -⟩ := step_cases h
  rw [step_ok hr hd, exec_hlt] at h
  cases h
  rfl

/-- Settles O41: HLT changes the run state alone, and a HALTED machine takes no step. -/
theorem hltStopsAtItsOwnAddress : Obligations.HltStopsAtItsOwnAddress := by
  intro s
  have hstop := (stoppedMachineTakesNoStepUntilReset { s with runState := .halted } (by simp)).1
  exact ⟨rfl, _, exec_hlt s, rfl, rfl, fun _ _ => rfl, fun _ => rfl, rfl, rfl, rfl, hstop⟩

/-! ### The generic advance (R88) -/

/-- An advance by an instruction's operand count moves past it, whatever else the instruction has changed before. -/
theorem advancedPast_advance {ins : Instr} {n : Nat} {s u : State} (hn : ins.operandCount = n) (hu : u.pc = s.pc) :
    AdvancedPast ins.operandCount s (advance n u) := by
  rw [hn]
  exact advance_advancedPast n (by rw [advance_pc, hu])

/-- An instruction with `sets_pc = 0` that stays in RUNNING has advanced past its operand bytes: among the shapes of a next
state, those that do not advance are a fault, a halt, and the jumps, CALL and RET, which set `pc`. -/
theorem Effect.advancedPast {ins : Instr} {s t : State} (h : Effect ins s t) (ht : t.runState = .running)
    (hset : opSetsPc ins.opcode = false) : AdvancedPast ins.operandCount s t := by
  cases h
  case faulted | halted => cases ht
  case jumped n hjump => cases hset.symm.trans hjump
  case called | returned => cases hset.symm.trans (opSetsPc_of_encode rfl (by decide))
  case advanced n hn | wroteReg n i v hn hi => exact advancedPast_advance hn rfl
  case compared | stored | pushed | popped | printed =>
    exact advancedPast_advance (operandCount_of_encode rfl (by decide)) rfl

/-- Settles O14, by the shapes a next state of `exec` can have. -/
theorem genericAdvancePastTheInstruction : Obligations.GenericAdvancePastTheInstruction :=
  fun _ _ _ _ h ht hset hmem => (exec_effect h).advancedPast ht hset hmem

/-! ### Fetching beyond memory (R81, R83) -/

/-- A raised cause is a fault entry with the cause's code, space and detail. -/
theorem takesFault_faultedState (c : FaultCause) (s : State) :
    TakesFault s (.next (faultedState c s)) c.kind c.oobSpace c.detail := rfl

/-- A decoded instruction other than INT ends inside memory, by the operand count in the byte at `pc`. -/
theorem operands_in_memory_of_fetchDecode {s : State} {ins : Instr} (hd : fetchDecode s = .ok ins) (hint : ins ≠ .int) :
    s.pc.toNat + opOperandCount (codeByte 0 s) ≤ 255 := by
  obtain ⟨-, hop, hat⟩ := fetchDecode_ok hd
  have hend := bytesAt_end_le (hat hint)
  rw [encode_length] at hend
  rw [hop]
  omega

/-- A fetch at `pc` beyond memory misses byte 0. -/
theorem fetchDecode_beyond {s : State} (hpc : 255 < s.pc.toNat) : fetchDecode s = .error (.missingByte 0) := by
  cases hd : fetchDecode s with
  | ok ins =>
    obtain ⟨hle, -⟩ := fetchDecode_ok hd
    omega
  | error e =>
    rcases fetchDecode_error hd with ⟨-, rfl⟩ | ⟨hle, -⟩
    · rfl
    · omega

/-- A defined opcode other than INT whose operand bytes do not all lie in memory misses the byte at address 256. -/
theorem fetchDecode_operand_beyond {s : State} (hpc : s.pc.toNat ≤ 255) (hdef : codeByte 0 s ∈ definedOpcodes)
    (hint : codeByte 0 s ≠ 0x52#8) (hcount : 255 < s.pc.toNat + opOperandCount (codeByte 0 s)) :
    ∃ k, s.pc.toNat + k = 256 ∧ fetchDecode s = .error (.missingByte k) := by
  cases hd : fetchDecode s with
  | ok ins =>
    obtain ⟨-, hop, -⟩ := fetchDecode_ok hd
    have hne : ins ≠ .int := by
      rintro rfl
      exact hint hop
    have := operands_in_memory_of_fetchDecode hd hne
    omega
  | error e =>
    rcases fetchDecode_error hd with ⟨hgt, -⟩ | ⟨-, ⟨k, hk, rfl, -⟩ | ⟨hundef, -⟩⟩
    · omega
    · exact ⟨k, hk, rfl⟩
    · exact absurd hdef hundef

/-- The step of a RUNNING machine whose instruction misses a byte reports the missing address. -/
theorem step_missingByte {s : State} {k : Nat} (hr : s.runState = .running) (hd : fetchDecode s = .error (.missingByte k)) :
    TakesFault s (step s) 1 0 (BitVec.ofNat 9 (s.pc.toNat + k)) := by
  rw [step_error hr hd]
  exact takesFault_faultedState (.outOfBoundsMemory (s.pc.toNat + k)) s

/-- Settles O16: the missing byte is the one at `pc`, or the one at address 256. -/
theorem fetchBeyondMemoryFaults : Obligations.FetchBeyondMemoryFaults := by
  constructor
  · intro s hr hpc
    have hfault := step_missingByte hr (fetchDecode_beyond hpc)
    rwa [Nat.add_zero, BitVec.ofNat_toNat, BitVec.setWidth_eq] at hfault
  · intro s hr hpc hdef hint _ hcount
    obtain ⟨k, hk, hd⟩ := fetchDecode_operand_beyond hpc hdef hint hcount
    have hfault := step_missingByte hr hd
    rwa [hk] at hfault

/-! ### Register operands (R85) -/

/-- An instruction that ends in the generic advance alone changes nothing but `pc`. -/
theorem onlyAdvances_of_exec {ins : Instr} {n : Nat} {s : State} (h : exec ins s = .next (advance n s)) :
    OnlyAdvances ins n s :=
  ⟨_, h, advance_advancedPast n rfl, fun _ _ => rfl, fun _ => rfl, rfl, rfl, rfl, rfl⟩

/-- The register operands are all the operand bytes, for every instruction but INT, PRA and LDI (30_encoding R67). -/
theorem regOperands_eq_operandBytes {ins : Instr} (hint : ins ≠ .int) (hpra : ∀ a, ins ≠ .pra a)
    (hldi : ∀ r v, ins ≠ .ldi r v) : ins.regOperands = (encode ins).tail := by
  cases ins
  case int => exact absurd rfl hint
  case pra a => exact absurd rfl (hpra a)
  case ldi r v => exact absurd rfl (hldi r v)
  all_goals rfl

/-- Settles O17: the operand check reports the first bad register operand, and PRA has none. -/
theorem badRegisterOperandFaults : Obligations.BadRegisterOperandFaults := by
  refine ⟨fun ins s r hbad => ?_, fun _ => regOperands_eq_operandBytes, fun _ _ => rfl, fun a s => ?_⟩
  · rw [exec_badReg s hbad]
    exact takesFault_faultedState (.outOfBoundsRegister r) s
  · exact onlyAdvances_of_exec (exec_pra s a)

end Sys2Proof.Machine

/-! PROOF. The ALU instructions (41_alu): what each leaves in its register, the frame around that one write, the division by
zero, and the comparison. -/

namespace Sys2Proof.Machine

/-! ### One register write and the generic advance (R116, R117; 40_engine_cycle R88) -/

/-- An instruction that ends in one register write and the generic advance changes only that register and `pc`. -/
theorem writesOneReg_of_exec {ins : Instr} {n : Nat} {i : Fin 8} {x : Int} {s : State} {v : Nat}
    (h : exec ins s = .next (advance n (writeReg i x s))) (hv : (u8 x).toNat = v) : WritesOneReg ins n i v s := by
  refine ⟨_, h, ?_, advance_advancedPast n rfl, ?_, fun _ => rfl, rfl, rfl, rfl, rfl⟩
  · rwa [readReg_advance, readReg_writeReg_same]
  · intro j hj
    rw [readReg_advance, readReg_writeReg_ne s i j x (List.ne_of_not_mem_cons hj)]

/-- A result below 256 is written as it is. -/
theorem u8_natCast_toNat_of_lt {n : Nat} (h : n < 256) : (u8 (n : Int)).toNat = n := by
  rw [u8_natCast_toNat, Nat.mod_eq_of_lt h]

/-! ### Arithmetic (R101, R102, R103, R106, R107) -/

/-- The sum modulo 256 (R101). -/
theorem u8_aluAdd_toNat (x y : Byte) : (u8 (aluAdd x y)).toNat = (x.toNat + y.toNat) % 256 :=
  u8_natCast_toNat (x.toNat + y.toNat)

/-- The difference modulo 256, a borrow lost (R102). -/
theorem u8_aluSub_toNat (x y : Byte) : (u8 (aluSub x y)).toNat = (256 + x.toNat - y.toNat) % 256 := by
  have hu : ((u8 (aluSub x y)).toNat : Int) = ((x.toNat : Int) - y.toNat) % 256 := u8_toNat _
  have hy := y.isLt
  omega

/-- The low 8 bits of the product (R103). -/
theorem u8_aluMul_toNat (x y : Byte) : (u8 (aluMul x y)).toNat = (x.toNat * y.toNat) % 256 := by
  unfold aluMul
  rw [← Nat.cast_mul, u8_natCast_toNat]

/-- Settles O24: each is one register write, of the sum, the difference or the product modulo 256. -/
theorem addSubMulWrapModulo256 : Obligations.AddSubMulWrapModulo256 := fun a b s =>
  ⟨rfl, writesOneReg_of_exec (exec_add s a b) (u8_aluAdd_toNat _ _),
   rfl, writesOneReg_of_exec (exec_sub s a b) (u8_aluSub_toNat _ _),
   rfl, writesOneReg_of_exec (exec_mul s a b) (u8_aluMul_toNat _ _)⟩

/-- One less, modulo 256 (R107). -/
theorem u8_aluDec_toNat (x : Byte) : (u8 (aluDec x)).toNat = (x.toNat + 255) % 256 := by
  have hu : ((u8 (aluDec x)).toNat : Int) = ((x.toNat : Int) - 1) % 256 := u8_toNat _
  omega

/-- The complement stays in 8 bits (R115). -/
theorem u8_aluNot_toNat (x : Byte) : (u8 (aluNot x)).toNat = 255 - x.toNat := by
  have hu : ((u8 (aluNot x)).toNat : Int) = (255 - (x.toNat : Int)) % 256 := u8_toNat _
  have hx := x.isLt
  omega

/-- Settles O27: each is one register write, computed from that register alone (R118). -/
theorem incDecNotOneRegister : Obligations.IncDecNotOneRegister := fun r s =>
  ⟨rfl, writesOneReg_of_exec (exec_inc s r) (u8_add_one_toNat _),
   rfl, writesOneReg_of_exec (exec_dec s r) (u8_aluDec_toNat _),
   rfl, writesOneReg_of_exec (exec_not s r) (u8_aluNot_toNat _)⟩

/-! ### Division (R104, R105; 60_exceptions R204) -/

/-- A quotient never exceeds its dividend, so it is written whole (R104). -/
theorem u8_aluDiv_toNat (x y : Byte) : (u8 (aluDiv x y)).toNat = x.toNat / y.toNat :=
  u8_natCast_toNat_of_lt ((Nat.div_le_self _ _).trans_lt x.isLt)

/-- A remainder never exceeds its dividend, so it is written whole (R105). -/
theorem u8_aluMod_toNat (x y : Byte) : (u8 (aluMod x y)).toNat = x.toNat % y.toNat :=
  u8_natCast_toNat_of_lt ((Nat.mod_le _ _).trans_lt x.isLt)

/-- A register index is reported as the operand byte that names it, zero-extended (60_exceptions R201). -/
theorem regByte_setWidth (i : Fin 8) : (regByte i).setWidth 9 = BitVec.ofNat 9 i.val := by
  rw [← BitVec.ofNat_toNat, regByte_toNat]

/-- An instruction that raises DivideByZero about register `j` is a fault entry with detail `j`. -/
theorem takesFault_divideByZero {ins : Instr} {j : Fin 8} {s : State}
    (h : exec ins s = .next (faultedState (.divideByZero (regByte j)) s)) :
    TakesFault s (exec ins s) 2 0 (BitVec.ofNat 9 j.val) := by
  rw [h, ← regByte_setWidth]
  exact takesFault_faultedState (.divideByZero (regByte j)) s

/-- Settles O25, by cases on the divisor: the zero test comes before the register write. -/
theorem divModDivideOrFault : Obligations.DivModDivideOrFault := by
  refine fun a b s => ⟨rfl, fun hb => ?_, fun hb => ?_, rfl, fun hb => ?_, fun hb => ?_⟩
  · exact writesOneReg_of_exec ((exec_div s a b).trans (if_neg hb)) (u8_aluDiv_toNat _ _)
  · exact takesFault_divideByZero ((exec_div s a b).trans (if_pos hb))
  · exact writesOneReg_of_exec ((exec_mod s a b).trans (if_neg hb)) (u8_aluMod_toNat _ _)
  · exact takesFault_divideByZero ((exec_mod s a b).trans (if_pos hb))

/-! ### Logic (R108, R109, R110) -/

/-- The bitwise and, which a byte holds (R108). -/
theorem u8_aluAnd_toNat (x y : Byte) : (u8 (aluAnd x y)).toNat = x.toNat &&& y.toNat := by
  rw [aluAnd, u8_toNat_self, BitVec.toNat_and]

/-- The bitwise or, which a byte holds (R109). -/
theorem u8_aluOr_toNat (x y : Byte) : (u8 (aluOr x y)).toNat = x.toNat ||| y.toNat := by
  rw [aluOr, u8_toNat_self, BitVec.toNat_or]

/-- The bitwise exclusive or, which a byte holds (R110). -/
theorem u8_aluXor_toNat (x y : Byte) : (u8 (aluXor x y)).toNat = x.toNat ^^^ y.toNat := by
  rw [aluXor, u8_toNat_self, BitVec.toNat_xor]

/-- Settles O28: each is one register write, of a byte's bitwise operation, which `u8` keeps. -/
theorem andOrXorBitwise : Obligations.AndOrXorBitwise := fun a b s =>
  ⟨rfl, writesOneReg_of_exec (exec_and s a b) (u8_aluAnd_toNat _ _),
   rfl, writesOneReg_of_exec (exec_or s a b) (u8_aluOr_toNat _ _),
   rfl, writesOneReg_of_exec (exec_xor s a b) (u8_aluXor_toNat _ _)⟩

/-! ### Shifts (R111, R112) -/

/-- The low 8 bits of the value shifted left (R111). -/
theorem u8_aluShl_toNat (x y : Byte) : (u8 (aluShl x y)).toNat = (x.toNat * 2 ^ y.toNat) % 256 :=
  u8_natCast_toNat _

/-- A value shifted right is no larger, so it is written whole (R112). -/
theorem u8_aluShr_toNat (x y : Byte) : (u8 (aluShr x y)).toNat = x.toNat / 2 ^ y.toNat :=
  u8_natCast_toNat_of_lt ((Nat.div_le_self _ _).trans_lt x.isLt)

/-- A left shift by 8 or more moves every bit out: 256 divides the product. -/
theorem mul_two_pow_mod_256_eq_zero (x : Nat) {k : Nat} (hk : 8 ≤ k) : x * 2 ^ k % 256 = 0 :=
  Nat.mod_eq_zero_of_dvd (Dvd.dvd.mul_left (pow_dvd_pow 2 hk) x)

/-- A right shift of a byte by 8 or more moves every bit out: the divisor exceeds the byte. -/
theorem byte_div_two_pow_eq_zero (x : Byte) {k : Nat} (hk : 8 ≤ k) : x.toNat / 2 ^ k = 0 :=
  Nat.div_eq_of_lt (x.isLt.trans_le (Nat.pow_le_pow_right Nat.two_pos hk))

/-- Settles O29: each is one register write of the shifted value, which is 0 where the amount is 8 or more. -/
theorem shiftsByTheWholeRegister : Obligations.ShiftsByTheWholeRegister := fun a b s =>
  have shl := writesOneReg_of_exec (exec_shl s a b) (u8_aluShl_toNat _ _)
  have shr := writesOneReg_of_exec (exec_shr s a b) (u8_aluShr_toNat _ _)
  ⟨rfl, shl, rfl, shr, fun h8 =>
    ⟨mul_two_pow_mod_256_eq_zero (readReg a s).toNat h8 ▸ shl, byte_div_two_pow_eq_zero (readReg a s) h8 ▸ shr⟩⟩

/-! ### The comparison (R113, R114) -/

/-- E is set exactly by equal values. -/
theorem compareFlags_e_iff (x y : Byte) : (compareFlags x y).e = true ↔ x.toNat = y.toNat := by
  unfold compareFlags
  split_ifs with heq hgt <;> simp [heq]

/-- G is set exactly by a greater first value. -/
theorem compareFlags_g_iff (x y : Byte) : (compareFlags x y).g = true ↔ y.toNat < x.toNat := by
  unfold compareFlags
  split_ifs with heq hgt
  · simp [heq]
  · simp [hgt]
  · simp [Nat.not_lt.mp hgt]

/-- L is set exactly by a smaller first value. -/
theorem compareFlags_l_iff (x y : Byte) : (compareFlags x y).l = true ↔ x.toNat < y.toNat := by
  unfold compareFlags
  split_ifs with heq hgt
  · simp [heq]
  · simp [hgt.le]
  · simpa using Nat.lt_of_le_of_ne (Nat.not_lt.mp hgt) heq

/-- Settles O30: the one write is FL's, of the comparison's three flags. -/
theorem cmpComparesUnsigned : Obligations.CmpComparesUnsigned := fun a b s =>
  ⟨rfl, _, exec_cmp s a b, compareFlags_e_iff _ _, compareFlags_g_iff _ _, compareFlags_l_iff _ _,
   advance_advancedPast 2 rfl, fun _ _ => rfl, fun _ => rfl, rfl, rfl, rfl⟩

end Sys2Proof.Machine

/-! PROOF. Data transfer, the stack and output (42_data_transfer): what each instruction writes and its frame, PUSH undone
by POP, and LDI then PRN as two steps of the engine. -/

namespace Sys2Proof.Machine

/-! ### The generic advance, and loads of a register (R141, R142, R146, R152) -/

/-- Settles O31: each is the generic advance alone. -/
theorem nopAndPraOnlyAdvance : Obligations.NopAndPraOnlyAdvance := fun operand s =>
  ⟨rfl, onlyAdvances_of_exec (exec_nop s), rfl, onlyAdvances_of_exec (exec_pra s operand)⟩

/-- An instruction that ends in a register write of a byte leaves that byte there, whole. -/
theorem writesOneReg_of_exec_byte {ins : Instr} {n : Nat} {i : Fin 8} {b : Byte} {s : State}
    (h : exec ins s = .next (advance n (writeReg i b.toNat s))) : WritesOneReg ins n i b.toNat s :=
  writesOneReg_of_exec h (congrArg BitVec.toNat (u8_toNat_self b))

/-- Settles O32: one register write, of the immediate. -/
theorem ldiLoadsTheImmediate : Obligations.LdiLoadsTheImmediate := fun r imm s =>
  ⟨rfl, writesOneReg_of_exec_byte (exec_ldi s r imm)⟩

/-- Settles O33: one register write, of the byte of memory. -/
theorem ldLoadsFromTheRegisterAddress : Obligations.LdLoadsFromTheRegisterAddress := fun a b s =>
  ⟨rfl, writesOneReg_of_exec_byte (exec_ld s a b)⟩

/-! ### A store (R147) -/

/-- The byte just set reads back. -/
@[simp] theorem readByte_setByte_same (a : Nat) (v : Byte) (s : State) : readByte a (s.setByte a v) = v :=
  get_set_same s.memory a v

/-- Setting a byte keeps every other byte. -/
theorem keepsMemoryBut_setByte (a : Nat) (v : Byte) (s : State) : KeepsMemoryBut a s (s.setByte a v) :=
  fun _ hb => get_set_ne s.memory v hb

/-- The generic advance keeps memory. -/
@[simp] theorem readByte_advance (a n : Nat) (s : State) : readByte a (advance n s) = readByte a s := rfl

/-- Settles O34: one byte is set, then the generic advance. -/
theorem stStoresAtTheRegisterAddress : Obligations.StStoresAtTheRegisterAddress := fun a b s =>
  ⟨rfl, _, exec_st s a b, readByte_setByte_same _ _ s, keepsMemoryBut_setByte _ _ s, advance_advancedPast 2 rfl,
   fun _ _ => rfl, rfl, rfl, rfl, rfl⟩

/-! ### The stack (R143, R148, R149, R150) -/

/-- Settles O35: SP is written first, so the register is read after it: R7 then holds the push address itself. -/
theorem pushDecrementsThenStores : Obligations.PushDecrementsThenStores := by
  intro r s
  rw [← pushAddr_toNat]
  refine ⟨rfl, _, exec_push s r, ?sp, ?byte, keepsMemoryBut_setByte _ _ (decSp s), advance_advancedPast 1 rfl, ?regs,
    rfl, rfl, rfl, rfl⟩
  case sp => rw [readReg_advance, readReg_setByte, readReg_decSp, if_pos rfl]
  case byte => rw [readByte_advance, readByte_setByte_same, readReg_decSp, apply_ite BitVec.toNat]
  case regs =>
    intro j hj
    rw [readReg_advance, readReg_setByte, readReg_decSp, if_neg (List.ne_of_not_mem_cons hj)]

/-- The last half of a pop adds one to SP as the register write left it. -/
theorem sp_incSp_toNat (s : State) : (readReg 7 (incSp s)).toNat = ((readReg 7 s).toNat + 1) % 256 := by
  rw [readReg_incSp, if_pos rfl, u8_add_one_toNat]

/-- The last half of a pop touches no register but SP. -/
theorem readReg_incSp_ne {j : Fin 8} (s : State) (h : j ≠ 7) : readReg j (incSp s) = readReg j s := by
  rw [readReg_incSp, if_neg h]

/-- Settles O36, by cases on the register: the increment adds to the old SP, or, in R7, to the byte just loaded. -/
theorem popLoadsThenIncrements : Obligations.PopLoadsThenIncrements := by
  intro r s
  refine ⟨rfl, _, exec_pop s r, ?other, ?r7, advance_advancedPast 1 rfl, ?regs, fun _ => rfl, rfl, rfl, rfl, rfl⟩
  case other =>
    intro hr
    constructor
    · rw [readReg_advance, readReg_incSp_ne _ hr, readReg_writeReg_same, u8_toNat_self, readByte]
    · rw [readReg_advance, sp_incSp_toNat, readReg_writeReg_ne _ _ _ _ hr.symm]
  case r7 =>
    rintro rfl
    rw [readReg_advance, sp_incSp_toNat, readReg_writeReg_same, u8_toNat_self, readByte]
  case regs =>
    intro j hj
    obtain ⟨hjr, hj7⟩ : j ≠ r ∧ j ≠ 7 := by simpa using hj
    rw [readReg_advance, readReg_incSp_ne _ hj7, readReg_writeReg_ne _ _ _ _ hjr]

/-- Settles O38, by the effects of PUSH and POP: POP reads what PUSH stored, and SP goes one down and one up modulo 256. -/
theorem pushThenPopRestores : Obligations.PushThenPopRestores := by
  intro r r' s t t' hr hr' h hsp hkeep
  obtain ⟨-, pushed, hpush, hspPush, hbyte, -⟩ := pushDecrementsThenStores r s
  obtain rfl : pushed = t := Host.Outcome.next.inj (hpush.symm.trans h)
  obtain ⟨-, u, hpop, hother, -, -, -, hmem, -⟩ := popLoadsThenIncrements r' t'
  obtain ⟨hval, hspPop⟩ := hother hr'
  have htop : readByte (readReg 7 t').toNat t' = readReg r s := by
    rw [hsp, hkeep, hspPush]
    exact BitVec.eq_of_toNat_eq (hbyte.trans (if_neg hr))
  have hbound := (readReg 7 s).isLt
  refine ⟨u, hpop, hval.trans htop, BitVec.eq_of_toNat_eq ?_, ?_⟩
  · rw [hspPop, hsp, hspPush]
    omega
  · rw [hmem, ← hspPush, ← hsp, htop]

/-! ### Output (R151) -/

/-- Settles O37: one output event, then the generic advance. -/
theorem prnEmitsTheRegister : Obligations.PrnEmitsTheRegister := fun r s =>
  ⟨rfl, _, exec_prn s r, rfl, advance_advancedPast 1 rfl, fun _ _ => rfl, fun _ => rfl, rfl, rfl, rfl⟩

/-! ### Two instructions in a row (40_engine_cycle R90) -/

/-- The first of the bytes at `pc` lie at `pc`. -/
theorem bytesAt_front {s : State} {front rest : List Byte} (h : BytesAt s (front ++ rest)) : BytesAt s front := by
  intro k hk
  obtain ⟨hmem, hread⟩ := h k (by rw [List.length_append]; omega)
  exact ⟨hmem, by rw [hread, List.getElem_append_left hk]⟩

/-- Once `pc` has moved past the first of the bytes, the others lie at `pc`, where memory still reads the same. -/
theorem bytesAt_rest {s t : State} {front rest : List Byte} (h : BytesAt s (front ++ rest))
    (hpc : t.pc.toNat = s.pc.toNat + front.length) (hmem : KeepsMemory s t) : BytesAt t rest := by
  intro k hk
  obtain ⟨hle, hread⟩ := h (front.length + k) (by rw [List.length_append]; omega)
  rw [hpc, hmem, Nat.add_assoc]
  exact ⟨hle, by simp [hread]⟩

/-- The step of a RUNNING machine with an instruction's encoding at `pc` is that instruction's meaning. -/
theorem step_of_bytesAt_encode {s : State} {ins : Instr} (hr : s.runState = .running) (hat : BytesAt s (encode ins)) :
    step s = exec ins s :=
  step_ok hr (fetchDecode_of_bytesAt hat (decode_encode ins))

/-- Settles O39, by the effects of LDI and PRN: LDI leaves memory, so PRN's bytes lie at the `pc` it advances to. -/
theorem ldiThenPrnPrintsTheValue : Obligations.LdiThenPrnPrintsTheValue := by
  intro r v s hr hat
  have hend : s.pc.toNat + 4 ≤ 255 := (hat 4 (by simp)).1
  obtain ⟨-, t, hldi, hreg, hadv, -, hmem, -, hout, hrun, -⟩ := ldiLoadsTheImmediate r v s
  obtain ⟨-, u, hprn, hemit, hadv', -, -, -, hrun', -⟩ := prnEmitsTheRegister r t
  have hpc : t.pc.toNat = s.pc.toNat + 1 + 2 := hadv (by omega)
  have hpc' : u.pc.toNat = t.pc.toNat + 1 + 1 := hadv' (by omega)
  have hatLdi : BytesAt s (encode (.ldi (regByte r) v)) := bytesAt_front (rest := [0x47#8, regByte r]) hat
  have hatPrn : BytesAt t (encode (.prn (regByte r))) :=
    bytesAt_rest (front := encode (.ldi (regByte r) v)) hat (by rw [hpc]; rfl) hmem
  refine ⟨t, u, (step_of_bytesAt_encode hr hatLdi).trans hldi,
    (step_of_bytesAt_encode (hrun.trans hr) hatPrn).trans hprn, ?_, hrun'.trans (hrun.trans hr), by omega⟩
  rw [hemit, hout, BitVec.eq_of_toNat_eq hreg]

end Sys2Proof.Machine

/-! PROOF. Control flow (43_control_flow): where each jump goes, CALL and RET and that they undo each other, CMP followed by
a branch, and the two instructions that always fault. -/

namespace Sys2Proof.Machine

/-! ### Jumps (R172 to R178, R182) -/

/-- An instruction that only sets `pc` to a byte jumps there: 9 bits hold the byte whole. -/
theorem jumpsTo_of_exec {ins : Instr} {b : Byte} {s : State} (h : exec ins s = .next (setPc b.toNat s)) :
    JumpsTo ins b.toNat s :=
  ⟨_, h, pcOfByte_toNat b, fun _ _ => rfl, fun _ => rfl, rfl, rfl, rfl, rfl⟩

/-- Settles O45: `pc` is set, and nothing else. -/
theorem jmpJumpsToTheRegister : Obligations.JmpJumpsToTheRegister := fun r s => ⟨rfl, jumpsTo_of_exec (exec_jmp s r)⟩

section ConditionalJump

variable {ins : Instr} {cond : Bool} {b : Byte} {s : State}

/-- A conditional jump whose condition holds goes to its register's value. -/
theorem jumpsTo_of_cond (h : exec ins s = .next (if cond then setPc b.toNat s else advance 1 s)) (hc : cond = true) :
    JumpsTo ins b.toNat s :=
  jumpsTo_of_exec (by rw [h, if_pos hc])

/-- A conditional jump whose condition is false goes past its operand byte (R182). -/
theorem onlyAdvances_of_cond (h : exec ins s = .next (if cond then setPc b.toNat s else advance 1 s))
    (hc : cond = false) : OnlyAdvances ins 1 s :=
  onlyAdvances_of_exec (by rw [h, if_neg (ne_true_of_eq_false hc)])

end ConditionalJump

/-- Settles O46: JEQ's condition is E and JNE's its negation. -/
theorem jeqJneReadTheEqualFlag : Obligations.JeqJneReadTheEqualFlag := by
  intro r s
  refine ⟨rfl, jumpsTo_of_cond (exec_jeq s r), onlyAdvances_of_cond (exec_jeq s r), rfl, fun he => ?_, fun he => ?_⟩
  · exact jumpsTo_of_cond (exec_jne s r) (by rw [flags_ne, he, Bool.not_false])
  · exact onlyAdvances_of_cond (exec_jne s r) (by rw [flags_ne, he, Bool.not_true])

/-- Settles O47: each condition is a flag, or the disjunction of two. -/
theorem orderedJumpsReadTheirFlags : Obligations.OrderedJumpsReadTheirFlags := by
  intro r s
  refine ⟨rfl, jumpsTo_of_cond (exec_jgt s r), onlyAdvances_of_cond (exec_jgt s r),
    rfl, jumpsTo_of_cond (exec_jlt s r), onlyAdvances_of_cond (exec_jlt s r),
    rfl, fun h => ?_, fun h => ?_, rfl, fun h => ?_, fun h => ?_⟩
  · exact jumpsTo_of_cond (exec_jle s r) (Bool.or_eq_true_iff.mpr h)
  · exact onlyAdvances_of_cond (exec_jle s r) (Bool.or_eq_false_iff.mpr h)
  · exact jumpsTo_of_cond (exec_jge s r) (Bool.or_eq_true_iff.mpr h)
  · exact onlyAdvances_of_cond (exec_jge s r) (Bool.or_eq_false_iff.mpr h)

/-- Settles O48: CMP leaves E set exactly by equal values, and the branch reads E. -/
theorem compareAndBranch : Obligations.CompareAndBranch := by
  intro a b r s t t' h hflags
  obtain ⟨-, compared, hcmp, he, -⟩ := cmpComparesUnsigned a b s
  obtain rfl : compared = t := Host.Outcome.next.inj (hcmp.symm.trans h)
  rw [← hflags, ← BitVec.toNat_eq] at he
  obtain ⟨-, hjeq, hjeqNot, -, hjne, hjneNot⟩ := jeqJneReadTheEqualFlag r t'
  constructor
  · intro heq
    have hset : t'.flags.e = true := he.mpr heq
    exact ⟨hjeq hset, hjneNot hset⟩
  · intro hne
    have hclear : t'.flags.e = false := Bool.eq_false_iff.mpr (mt he.mp hne)
    exact ⟨hjeqNot hclear, hjne hclear⟩

/-! ### CALL and RET (R170, R171, R183) -/

/-- Setting `pc` keeps memory. -/
@[simp] theorem readByte_setPc (a n : Nat) (s : State) : readByte a (setPc n s) = readByte a s := rfl

/-- Settles O42, by cases on whether the return address is a byte: SP is written first, so R7 as the target is read after
the decrement. -/
theorem callPushesReturnAddressAndJumps : Obligations.CallPushesReturnAddressAndJumps := by
  intro r s
  refine ⟨rfl, fun hpc => ?completes, fun hpc => ?faults⟩
  case completes =>
    have hcall := (exec_call s r).trans (if_neg (by omega))
    rw [← pushAddr_toNat]
    refine ⟨_, hcall, ?sp, ?byte, ?pc, keepsMemoryBut_setByte _ _ (decSp s), ?regs, rfl, rfl, rfl, rfl⟩
    case sp => rw [readReg_setPc, readReg_setByte, readReg_decSp, if_pos rfl]
    case byte => rw [readByte_setPc, readByte_setByte_same, u8_natCast_toNat_of_lt (by omega)]
    case pc => rw [setPc_pc, pcOfByte_toNat, readReg_decSp, apply_ite BitVec.toNat]
    case regs =>
      intro j hj
      rw [readReg_setPc, readReg_setByte, readReg_decSp, if_neg (List.ne_of_not_mem_cons hj)]
  case faults =>
    rw [exec_call, if_pos (by omega), hpc]
    exact takesFault_faultedState (.outOfBoundsMemory 256) s

/-- Settles O43: `pc` gets the byte at SP, then SP is incremented. -/
theorem retPopsThePc : Obligations.RetPopsThePc := by
  intro s
  refine ⟨rfl, _, exec_ret s, pcOfByte_toNat _, sp_incSp_toNat _, fun j hj => ?_, fun _ => rfl, rfl, rfl, rfl, rfl⟩
  rw [readReg_incSp_ne _ (List.ne_of_not_mem_cons hj), readReg_setPc]

/-- Settles O44, by the effects of CALL and RET: RET reads the return address, and SP goes one down and one up modulo 256. -/
theorem retReturnsPastTheCall : Obligations.RetReturnsPastTheCall := by
  intro r s t t' hpc h hsp hkeep
  obtain ⟨-, hcompletes, -⟩ := callPushesReturnAddressAndJumps r s
  obtain ⟨called, hcall, hspCall, hbyte, -⟩ := hcompletes hpc
  obtain rfl : called = t := Host.Outcome.next.inj (hcall.symm.trans h)
  obtain ⟨-, u, hret, hpcRet, hspRet, -⟩ := retPopsThePc t'
  have hbound := (readReg 7 s).isLt
  refine ⟨u, hret, ?_, BitVec.eq_of_toNat_eq ?_⟩
  · rw [hpcRet, hsp, hkeep, hspCall, hbyte]
  · rw [hspRet, hsp, hspCall]
    omega

/-! ### INT and IRET (R179, R180; 40_engine_cycle R84) -/

/-- Settles O49: both are fetched from the opcode byte alone, so what follows it in memory plays no part. -/
theorem intAndIretAreIllegal : Obligations.IntAndIretAreIllegal := by
  intro s
  have hint : TakesFault s (exec .int s) 4 0 0x52 := takesFault_faultedState (.illegalInstruction 0x52#8) s
  have hiret : TakesFault s (exec .iret s) 4 0 0x13 := takesFault_faultedState (.illegalInstruction 0x13#8) s
  refine ⟨rfl, hint, rfl, hiret, fun hr hpc hop => ?_, fun hr hpc hop => ?_⟩
  · have hdecode : decode [0x52#8] = .ok .int := rfl
    rwa [step_ok hr (fetchDecode_of_bytesAt (bytesAt_one hpc hop) hdecode)]
  · have hat : BytesAt s (encode .iret) := bytesAt_one hpc hop
    rwa [step_of_bytesAt_encode hr hat]

end Sys2Proof.Machine

/-! PROOF. Faults (60_exceptions): what a fault leaves, the undefined opcodes, and the one fault of the ALU. -/

namespace Sys2Proof.Machine

/-! ### Every fault is precise (R202) -/

/-- A step that ends in FAULTED is a fault entry in the state it began in: an instruction that takes no fault keeps RUNNING
or halts. -/
theorem step_faulted {s t : State} (h : step s = .next t) (ht : t.runState = .faulted) : ∃ c, t = faultedState c s := by
  obtain ⟨hr, ⟨e, -, hu⟩ | ⟨ins, -, hx⟩⟩ := step_cases h
  · obtain ⟨c, hc⟩ := undecoded_next e s
    exact ⟨c, Host.Outcome.next.inj (hu.symm.trans hc)⟩
  · rcases exec_cases hx with ⟨hkeep, -⟩ | ⟨-, rfl⟩ | hfault
    · cases hr.symm.trans (hkeep.symm.trans ht)
    · cases ht
    · exact hfault

/-- Settles O18: a fault entry writes the run state and the record alone, and a FAULTED machine takes no step. -/
theorem faultsArePrecise : Obligations.FaultsArePrecise := by
  intro s t h ht
  have hstop := (stoppedMachineTakesNoStepUntilReset t (by simp [ht])).1
  obtain ⟨c, rfl⟩ := step_faulted h ht
  exact ⟨rfl, rfl, rfl, rfl, fun _ _ => rfl, fun _ => rfl, hstop⟩

/-! ### Undefined opcodes (R205, R206; 30_encoding R71) -/

section
variable {s : State}

/-- An opcode outside 30_encoding R64 is the decode error, whatever follows it: `pc` is inside memory, and only a defined
opcode decodes or misses an operand byte. -/
theorem fetchDecode_undefined (hpc : s.pc.toNat ≤ 255) (hop : codeByte 0 s ∉ definedOpcodes) :
    fetchDecode s = .error (undefinedOpcode (codeByte 0 s)) := by
  cases hd : fetchDecode s with
  | ok ins =>
    obtain ⟨-, heq, -⟩ := fetchDecode_ok hd
    exact absurd (heq ▸ opcode_mem_definedOpcodes ins) hop
  | error e =>
    rcases fetchDecode_error hd with ⟨hgt, -⟩ | ⟨-, ⟨k, -, -, hdef, -⟩ | ⟨-, rfl⟩⟩
    · omega
    · exact absurd hdef hop
    · rfl

/-- An opcode with bit 5 set that is none of the 14 is none of the 34. -/
theorem undefined_of_opIsAlu {op : Byte} (hbit : opIsAlu op = true) (hop : op ∉ aluOpcodes) : op ∉ definedOpcodes :=
  fun hdef => hop ((opFields_of_mem_definedOpcodes op hdef).1.mp hbit)

/-- An opcode with bit 5 clear that is none of the 20 is none of the 34. -/
theorem undefined_of_not_opIsAlu {op : Byte} (hbit : opIsAlu op = false) (hop : op ∉ controlOpcodes ++ transferOpcodes) :
    op ∉ definedOpcodes := by
  intro hdef
  have halu : op ∉ aluOpcodes := mt (opFields_of_mem_definedOpcodes op hdef).1.mpr (Bool.eq_false_iff.mp hbit)
  rw [definedOpcodes, List.append_assoc] at hdef
  exact (List.mem_append.mp hdef).elim halu hop

/-- The step at an undefined opcode with bit 5 set (R205). -/
theorem step_unsupported (hr : s.runState = .running) (hpc : s.pc.toNat ≤ 255) (hbit : opIsAlu (codeByte 0 s) = true)
    (hop : codeByte 0 s ∉ aluOpcodes) : TakesFault s (step s) 3 0 ((codeByte 0 s).setWidth 9) := by
  rw [step_error hr (fetchDecode_undefined hpc (undefined_of_opIsAlu hbit hop)), undefinedOpcode, if_pos hbit]
  exact takesFault_faultedState (.unsupportedOperation (codeByte 0 s)) s

/-- The step at an undefined opcode with bit 5 clear (R206). -/
theorem step_illegal (hr : s.runState = .running) (hpc : s.pc.toNat ≤ 255) (hbit : opIsAlu (codeByte 0 s) = false)
    (hop : codeByte 0 s ∉ controlOpcodes ++ transferOpcodes) :
    TakesFault s (step s) 4 0 ((codeByte 0 s).setWidth 9) := by
  rw [step_error hr (fetchDecode_undefined hpc (undefined_of_not_opIsAlu hbit hop)), undefinedOpcode,
    if_neg (Bool.eq_false_iff.mp hbit)]
  exact takesFault_faultedState (.illegalInstruction (codeByte 0 s)) s

end

/-- Settles O15: an undefined opcode is the decode error of its bit 5, INT and IRET fault when executed, and the two kinds
of undefined opcodes are counted. -/
theorem undefinedOpcodesFaultByBitFive : Obligations.UndefinedOpcodesFaultByBitFive := by
  refine ⟨fun s hr hpc => ⟨step_unsupported hr hpc, fun hbit hop => ?_⟩, by decide +kernel, by decide +kernel⟩
  obtain ⟨-, -, -, -, hint, hiret⟩ := intAndIretAreIllegal s
  rcases hop with hundef | hop | hop
  · exact step_illegal hr hpc hbit hundef
  · rw [hop]
    exact hint hr hpc hop
  · rw [hop]
    exact hiret hr hpc hop

/-! ### The one fault of the ALU (R204) -/

/-- Every register operand of a well-formed instruction names a register. -/
theorem eq_regByte_of_mem {ins : Instr} {b : Byte} (hw : WellFormed ins) (hb : b ∈ ins.regOperands) :
    ∃ i : Fin 8, b = regByte i :=
  eq_regByte (List.all_eq_true.mp hw b hb)

/-- Both operands of a well-formed two-register instruction name registers. -/
theorem eq_regByte_pair {ins : Instr} {a b : Byte} (hw : WellFormed ins) (hops : ins.regOperands = [a, b]) :
    ∃ i j : Fin 8, a = regByte i ∧ b = regByte j := by
  obtain ⟨i, hi⟩ := eq_regByte_of_mem (b := a) hw (by simp [hops])
  obtain ⟨j, hj⟩ := eq_regByte_of_mem (b := b) hw (by simp [hops])
  exact ⟨i, j, hi, hj⟩

/-- A well-formed ALU instruction either keeps the run state or is a DIV or MOD whose divisor register holds 0. -/
theorem alu_keeps_runState_or_zeroDivisor {ins : Instr} {s t : State} (halu : ins.opcode ∈ aluOpcodes)
    (hw : WellFormed ins) (h : exec ins s = .next t) :
    t.runState = s.runState ∨
      ∃ a b : Fin 8, readReg b s = 0#8 ∧ (ins = .div (regByte a) (regByte b) ∨ ins = .mod (regByte a) (regByte b)) := by
  cases ins
  case inc r | dec r | not r =>
    obtain ⟨i, rfl⟩ := eq_regByte_of_mem hw List.mem_cons_self
    simp only [exec_inc, exec_dec, exec_not] at h
    cases h
    exact .inl rfl
  case div a b | mod a b =>
    obtain ⟨i, j, rfl, rfl⟩ := eq_regByte_pair hw rfl
    simp only [exec_div, exec_mod] at h
    split_ifs at h with hz <;> cases h
    · exact .inr ⟨i, j, hz, by simp⟩
    · exact .inl rfl
  case add a b | sub a b | mul a b | cmp a b | and a b | or a b | xor a b | shl a b | shr a b =>
    obtain ⟨i, j, rfl, rfl⟩ := eq_regByte_pair hw rfl
    simp only [exec_add, exec_sub, exec_mul, exec_cmp, exec_and, exec_or, exec_xor, exec_shl, exec_shr] at h
    cases h
    exact .inl rfl
  all_goals simp [Instr.opcode, encode, aluOpcodes] at halu

/-- Settles O26: the zero test of DIV and MOD is the one check an ALU instruction with valid operands can fail. -/
theorem divideByZeroIsTheOnlyAluFault : Obligations.DivideByZeroIsTheOnlyAluFault := by
  refine ⟨fun a b s hz => ?_, fun ins s t halu hw hr h ht => ?_⟩
  · obtain ⟨-, -, hdiv, -, -, hmod⟩ := divModDivideOrFault a b s
    exact ⟨hdiv hz, hmod hz⟩
  · refine (alu_keeps_runState_or_zeroDivisor halu hw h).resolve_left fun hkeep => ?_
    cases hr.symm.trans (hkeep.symm.trans ht)

end Sys2Proof.Machine

/-! PROOF. Reset and loading (70_reset_and_hazards): what the loader leaves in memory, the first instruction of a run, and
the invariant at reset. -/

namespace Sys2Proof.Machine

/-! ### What the loader leaves in memory (R233) -/

/-- Bytes placed from address `a` inside memory: from `a` on memory reads as they do, and beyond their end as before. -/
theorem get_setBytes_from (bytes : List Byte) (m : Memory) {a b : Nat} (hfit : a + bytes.length ≤ maxAddr + 1)
    (hab : a ≤ b) : Memory.get (Memory.setBytes m a bytes) b = bytes.getD (b - a) (Memory.get m b) := by
  induction bytes generalizing m a with
  | nil => rfl
  | cons v vs ih =>
    rw [List.length_cons] at hfit
    rw [Memory.setBytes, if_pos (by omega)]
    obtain rfl | hlt := hab.eq_or_lt
    · rw [get_setBytes_below _ _ _ _ (Nat.lt_succ_self a), get_set_same, Nat.sub_self, List.getD_cons_zero]
    · have hsub : b - a = b - (a + 1) + 1 := by omega
      rw [ih _ (by omega) hlt, get_set_ne _ _ hlt.ne', hsub, List.getD_cons_succ]

/-- A program that fits is loaded; nothing of the memory before is kept. -/
theorem load_of_length_le (h : HeldInReset) {p : List Byte} (hp : p.length ≤ 256) :
    h.load p = some { h with memory := Memory.setBytes [] 0 p } :=
  if_pos hp

/-- A longer program is not loaded. -/
theorem load_of_lt_length (h : HeldInReset) {p : List Byte} (hp : 256 < p.length) : h.load p = none :=
  if_neg (Nat.not_le.mpr hp)

/-- After the release that follows a load, memory reads as the program, 0 beyond its end. -/
theorem readByte_release_of_load {h h' : HeldInReset} {p : List Byte} (hl : h.load p = some h') (a : Nat) :
    readByte a h'.release = p.getD a 0 := by
  obtain ⟨hlen, rfl⟩ := load_eq hl
  exact get_setBytes_from p [] (by omega) (Nat.zero_le a)

/-- A loaded memory is canonical. -/
theorem memory_wf_of_load {h h' : HeldInReset} {p : List Byte} (hl : h.load p = some h') : Memory.wf h'.memory = true := by
  obtain ⟨-, rfl⟩ := load_eq hl
  exact setBytes_wf p [] 0 reset_memory_wf

/-- Settles O2: placing bytes over an empty memory makes it read as they do, and keeps it canonical. -/
theorem loadPlacesProgramFromZero : Obligations.LoadPlacesProgramFromZero := by
  refine ⟨fun s a => rfl, fun h p => ⟨fun hp => ?_, load_of_lt_length h⟩⟩
  have hl := load_of_length_le h hp
  refine ⟨_, hl, memory_wf_of_load hl, fun a => ?_⟩
  rw [readByte_release_of_load hl]
  split_ifs with ha
  · rfl
  · exact List.getD_eq_default _ _ (Nat.not_lt.mp ha)

/-! ### The first instruction (R232) -/

/-- After the release that follows a load, the program lies at `pc`, which is 0. -/
theorem bytesAt_release_of_load {h h' : HeldInReset} {p : List Byte} (hl : h.load p = some h') : BytesAt h'.release p := by
  intro k hk
  obtain ⟨hlen, -⟩ := load_eq hl
  simp only [maxAddr] at hlen
  have hpc : h'.release.pc.toNat + k = k := Nat.zero_add k
  rw [hpc, readByte_release_of_load hl]
  exact ⟨by omega, List.getD_eq_getElem _ _ hk⟩

/-- Settles O3: the instruction's encoding is the front of the program, which lies at the `pc` of a RUNNING machine. -/
theorem firstInstructionIsAtAddressZero : Obligations.FirstInstructionIsAtAddressZero := fun _ h' _ _ hl =>
  step_of_bytesAt_encode (release_runState h') (bytesAt_front (bytesAt_release_of_load hl))

/-! ### The invariant at reset (R231; 10_state R29) -/

/-- The release of reset meets the invariant over any canonical memory: it leaves RUNNING, `pc` 0 and no flag set. -/
theorem inv_release (h : HeldInReset) (hm : Memory.wf h.memory = true) : Inv h.release :=
  Inv.of_running (release_runState h) hm (Nat.zero_le 256) (by simp [Flags.legal])

/-- Settles O4: the reset state is the release over the empty memory. -/
theorem invHoldsAtReset : Obligations.InvHoldsAtReset :=
  ⟨inv_release State.reset.assertReset reset_memory_wf, fun s hm => inv_release s.assertReset hm⟩

end Sys2Proof.Machine
